-- ==== Sys2Proof/Word.lean ====
section
/-! DEFINITION. The value types of the notation (00_scope.md R10, R14): bytes and 16-bit values, and the
named values of 10_state.md and 00_scope.md that operations take, return or send. -/

namespace Sys2Proof

/-- A byte is 8 bits (R10). -/
abbrev Byte := BitVec 8

/-- A 16-bit value: a phase duration (R23) or the DIRECT word of one chip (R91). -/
abbrev Word := BitVec 16

/-- DecoderMode (10_state.md R26). -/
inductive Mode where
  | idle
  | receivingConfig
  | receivingState
  deriving DecidableEq, Repr

/-- Phase (10_state.md R28): PF, IAF, PR, IAR. -/
inductive Phase where
  | pulseForward
  | idleAfterForward
  | pulseReverse
  | idleAfterReverse
  deriving DecidableEq, Repr

/-- BridgeState, the element type of the target vector (42_bitpacker.md R160). -/
inductive BridgeState where
  | off
  | forward
  | reverse
  deriving DecidableEq, Repr

/-- Four unsigned 16-bit durations in the order up, inter, down, pause: `cfg` (R23) and the staging
record `acc` (R27) both have this shape. -/
structure TimingConfig where
  up : Word
  inter : Word
  down : Word
  pause : Word
  deriving DecidableEq, Repr

/-- The record with all four durations zero (R38, R110). -/
def TimingConfig.zero : TimingConfig := ⟨0, 0, 0, 0⟩

/-- DecoderEvent, the result of one FEED (R34, R113). -/
inductive DecoderEvent where
  | none
  | configReady (c : TimingConfig)
  | stateReady (v : List Bool)
  deriving DecidableEq, Repr

/-- The events of the bus trace (00_scope.md R11, R13). -/
inductive BusEvent where
  | select (k : Nat)
  | shift (b : Byte)
  | deselect (k : Nat)
  | diag
  deriving DecidableEq, Repr

/-- What the environment supplies at one STEP: an optional byte and one time reading (R190, R193). -/
structure EnvInput where
  byte : Option Byte
  now : Nat
  deriving DecidableEq, Repr

/-- What the operation run last returned, in the model's own result port (log entry 6). -/
inductive Ret where
  | unit
  | event (e : DecoderEvent)
  | phase (p : Phase)
  | target (t : List BridgeState)
  | word (w : Word)
  | byte (b : Byte)
  deriving DecidableEq, Repr

end Sys2Proof
end

