-- ==== Sys2Proof/Config.lean ====
section
/-! DEFINITION. What an implementation fixes: the parameters of 00_scope.md R7 and R8, constant for the
whole life of a run, and the free values, opaque constants nothing in Lean can evaluate. -/

namespace Sys2Proof

/-- ENCODING (R8): selected per target hardware. -/
inductive Encoding where
  | direct
  | regaddr
  deriving DecidableEq, Repr

/-- STATE_MAP (R8, R86, R87). -/
inductive StateMap where
  | unit9
  | flat6
  | flat8
  deriving DecidableEq, Repr

/-- STATE_COMMIT (R8, R126). -/
inductive StateCommit where
  | incremental
  | atFrameEnd
  deriving DecidableEq, Repr

/-- EMIT_POLICY (R8, R143). -/
inductive EmitPolicy where
  | edge
  | always
  deriving DecidableEq, Repr

/-- Where the bits of local bridge `k` stand in a chip's DIRECT word: the two enable positions and the
two direction positions (R91; a parameter as 93_implementation_defined.md U14 asks; log entry 10). -/
structure DirectLayout where
  enHi : Vector (Fin 16) 3
  enLo : Vector (Fin 16) 3
  dirHi : Vector (Fin 16) 3
  dirLo : Vector (Fin 16) 3
  deriving DecidableEq, Repr

/-- The positions of the table of R91: enables 8+2k and 7+2k, directions 2+2k and 1+2k (R52). -/
def DirectLayout.table : DirectLayout :=
  { enHi := #v[8, 10, 12], enLo := #v[7, 9, 11], dirHi := #v[2, 4, 6], dirLo := #v[1, 3, 5] }

/-- The parameter list of R8. TIME_UNIT is a label no rule depends on. ADDR_BYTE(r, last) is a table:
`addrMid` for `last` false, `addrLast` for `last` true (R94, R171). -/
structure Params where
  encoding : Encoding
  nBoards : Nat
  chipsPerBoard : Nat
  stateMap : StateMap
  unitLimit : Option Nat
  clearOnStateBegin : Bool
  stateCommit : StateCommit
  emitPolicy : EmitPolicy
  minPulse : Word
  timeWidth : Nat
  timeUnit : String
  addrMid : Vector Byte 3
  addrLast : Vector Byte 3
  dirFwd : BitVec 2
  dirRev : BitVec 2
  nibFwd : BitVec 4
  nibRev : BitVec 4
  layout : DirectLayout
  deriving DecidableEq, Repr

/-- ADDR_BYTE is OPEN (R8, R94, D13): a free value (log entry 2). -/
opaque Config.addrByte : Nat → Bool → Byte

/-- TIME_UNIT is an OPEN label (R8, D2): a free value (log entry 2). -/
opaque Config.timeUnit : String

/-- Whether a byte is available at the `n`-th drawn STEP, and which: the environment's free choice
(R193, U19; log entry 3). -/
opaque Config.freeByte : Nat → Option Byte

/-- What the time source reads at the `n`-th drawn STEP: the environment's free choice (R193, U18;
log entry 3). -/
opaque Config.freeNow : Nat → Nat

/-- The parameters of `State.reset`: R8's default where it has one, free values for ADDR_BYTE and
TIME_UNIT, and for the other OPEN ones the 3-chip, 9-bridge DIRECT board that R9 quotes
(DESIGN CHOICE, log entry 1; statements are over every parameter record). -/
def Params.representative : Params :=
  { encoding := .direct
    nBoards := 1
    chipsPerBoard := 3
    stateMap := .unit9
    unitLimit := none
    clearOnStateBegin := false
    stateCommit := .incremental
    emitPolicy := .edge
    minPulse := 0
    timeWidth := 32
    timeUnit := Config.timeUnit
    addrMid := #v[Config.addrByte 0 false, Config.addrByte 1 false, Config.addrByte 2 false]
    addrLast := #v[Config.addrByte 0 true, Config.addrByte 1 true, Config.addrByte 2 true]
    dirFwd := 0b10
    dirRev := 0b01
    nibFwd := 0b0110
    nibRev := 0b1001
    layout := DirectLayout.table }

end Sys2Proof
end

