-- ==== Sys2Proof/Machine/Geometry.lean ====
section
/-! DEFINITION. What follows from the parameters: the derived sizes of 00_scope.md R8 and the index map
of 20_memory.md R52. -/

namespace Sys2Proof

/-- BRIDGES_PER_CHIP is fixed by ENCODING: 3 or 6 (R8, C6, D31). -/
def Encoding.bridgesPerChip : Encoding → Nat
  | .direct => 3
  | .regaddr => 6

/-- N_CHIPS = N_BOARDS × CHIPS_PER_BOARD (R8). -/
def Params.nChips (p : Params) : Nat := p.nBoards * p.chipsPerBoard

/-- N = N_CHIPS × BRIDGES_PER_CHIP, the length of the bridge-state latch (R8, R20). -/
def Params.nBridges (p : Params) : Nat := p.nChips * p.encoding.bridgesPerChip

/-- The global chip index `g = β × CHIPS_PER_BOARD + c` (R51). -/
def Params.globalChip (p : Params) (board chip : Nat) : Nat := board * p.chipsPerBoard + chip

/-- The bridge index of local bridge `k` of global chip `g` when a chip has `perChip` bridges: the
inverse of `g = i div B`, `k = i mod B` (R52). -/
def bridgeIndex (perChip g k : Nat) : Nat := perChip * g + k

/-- The chips of a board in the order they are shifted: highest index first (R93, R96, R166). -/
def Params.chipsDescending (p : Params) : List Nat := (List.range p.chipsPerBoard).reverse

/-- ADDR_BYTE(r, last) (R94, R171). -/
def Params.addrByte (p : Params) (r : Fin 3) (last : Bool) : Byte :=
  if last then p.addrLast[r] else p.addrMid[r]

/-- `now` is the unsigned value of its TIME_WIDTH bits (R145, R210). -/
def Params.reading (p : Params) (now : Nat) : Nat := now % 2 ^ p.timeWidth

end Sys2Proof
end

