-- ==== Sys2Proof/Machine/Operands.lean ====
section
/-! DEFINITION. The operand forms: bytes of a 16-bit value (00_scope.md R10), the byte layout of a
configuration frame (30_encoding.md R84) and the state-frame maps (R86, R87). -/

namespace Sys2Proof

/-- `v[7:0]` (R10). -/
def loByte (v : Word) : Byte := v.extractLsb' 0 8

/-- `v[15:8]` (R10). -/
def hiByte (v : Word) : Byte := v.extractLsb' 8 8

/-- `hi ++ lo` on bytes (R10). -/
def joinBytes (hi lo : Byte) : Word := hi ++ lo

/-- `hi ++ lo` on nibbles (R10). -/
def joinNibbles (hi lo : BitVec 4) : Byte := hi ++ lo

/-- `v[7:0] <- b` (R84, even byte index). -/
def setLoByte (v : Word) (b : Byte) : Word := joinBytes (hiByte v) b

/-- `v[15:8] <- b` (R84, odd byte index). -/
def setHiByte (v : Word) (b : Byte) : Word := joinBytes b (loByte v)

/-- Change field `f` of the record, 0 to 3 in the order up, inter, down, pause (R27, R84). There is no
fifth field: an index above 3, which no run reaches, changes nothing (log entry 9). -/
def TimingConfig.modifyField (c : TimingConfig) (f : Nat) (g : Word → Word) : TimingConfig :=
  match f with
  | 0 => { c with up := g c.up }
  | 1 => { c with inter := g c.inter }
  | 2 => { c with down := g c.down }
  | 3 => { c with pause := g c.pause }
  | _ => c

/-- The byte of a configuration frame with index `cnt` fills half of field `cnt div 2` (R84). -/
def TimingConfig.setByte (c : TimingConfig) (cnt : Nat) (b : Byte) : TimingConfig :=
  c.modifyField (cnt / 2) fun v => if cnt % 2 = 0 then setLoByte v b else setHiByte v b

/-- The unit index `u` of the data byte with index `cnt` (R86, R87). -/
def StateMap.unit (m : StateMap) (cnt : Nat) : Nat :=
  match m with
  | .unit9 => cnt / 2
  | .flat6 => cnt
  | .flat8 => cnt

/-- The bridge index that bit 0 of the data byte with index `cnt` writes (R86, R87). -/
def StateMap.base (m : StateMap) (cnt : Nat) : Nat :=
  match m with
  | .unit9 => if cnt % 2 = 0 then 9 * (cnt / 2) else 9 * (cnt / 2) + 7
  | .flat6 => 6 * cnt
  | .flat8 => 8 * cnt

/-- How many bits of the data byte with index `cnt` are used (R86, R87, R88). -/
def StateMap.width (m : StateMap) (cnt : Nat) : Nat :=
  match m with
  | .unit9 => if cnt % 2 = 0 then 7 else 2
  | .flat6 => 6
  | .flat8 => 8

/-- Write bits 0 to w - 1 of `b` at `base` and up; a write at or above `n` has no effect (R119, R121). -/
def writeFlags (n base w : Nat) (b : Byte) (v : List Bool) : List Bool :=
  (List.range w).foldl (fun acc j => if base + j < n then acc.set (base + j) (b.getLsbD j) else acc) v

/-- Whether UNIT_LIMIT is set and the unit index is at or above it (R119, R120). -/
def Params.overLimit (p : Params) (cnt : Nat) : Bool :=
  match p.unitLimit with
  | none => false
  | some limit => decide (limit ≤ p.stateMap.unit cnt)

end Sys2Proof
end

