-- ==== Sys2Proof/Syntax.lean ====
section
/-! DEFINITION. The operations: one constructor for each row of spec/opcode_table.json, in the table's
order. The operands are the table's `source_fields`; an operand that is state (`cfg`, `D`) is read
from State (00_scope.md R12; 30_encoding.md R99). -/

namespace Sys2Proof

/-- The seventeen operations. The first six are selected by an input byte (R82); the others have no
encoding (R99). -/
inductive Instr where
  /-- CFG_BEGIN (R110). -/
  | cfgBegin
  /-- STATE_BEGIN (R111). -/
  | stateBegin
  /-- IDLE_IGNORE (R112): the byte, unused. -/
  | idleIgnore (b : Byte)
  /-- CFG_DATA (R114). -/
  | cfgData (b : Byte)
  /-- STATE_END (R118). -/
  | stateEnd
  /-- STATE_DATA (R119). -/
  | stateData (b : Byte)
  /-- FEED (R113). -/
  | feed (b : Byte)
  /-- PHASE_OF (R140); `cfg` is the state's. -/
  | phaseOf (now : Nat)
  /-- TICK (R143). -/
  | tick (now : Nat)
  /-- TARGET (R160); `D` is the state's. -/
  | target (ph : Phase)
  /-- EMIT (R161); `D` is the state's. -/
  | emit (ph : Phase)
  /-- WORD (R162). -/
  | word (t0 t1 t2 : BridgeState)
  /-- EMIT_DIRECT_BOARD (R163). -/
  | emitDirectBoard (board : Nat) (t : List BridgeState)
  /-- DATA_BYTE (R168): the even and the odd local bridge's target. -/
  | dataByte (te tOdd : BridgeState)
  /-- EMIT_REGADDR_BOARD (R170). -/
  | emitRegaddrBoard (board : Nat) (t : List BridgeState)
  /-- APPLY (R191). -/
  | apply (ev : DecoderEvent)
  /-- STEP (R190): an optional input byte and the time reading. -/
  | step (inp : Option Byte) (now : Nat)
  deriving DecidableEq, Repr

end Sys2Proof
end

