-- ==== Sys2Proof/Decode.lean ====
section
/-! DEFINITION. The decode table of 30_encoding.md R82 (total: every pair of mode and byte selects exactly
one operation, so nothing is rejected, R89), the encoder, and the stream shorthands of R98. -/

namespace Sys2Proof

/-- The table of R82 as a selection among six alternatives, so that decoding and FEED read the same
table. -/
def selectRow {α : Type} (m : Mode) (b : Byte) (cfgBegin stateBegin : α) (idleIgnore cfgData : Byte → α)
    (stateEnd : α) (stateData : Byte → α) : α :=
  match m with
  | .idle => if b = 0x80#8 then cfgBegin else if b = 0x81#8 then stateBegin else idleIgnore b
  | .receivingConfig => cfgData b
  | .receivingState => if b = 0x82#8 then stateEnd else stateData b

/-- What operation a byte is, told from the mode and the byte value alone (R80, R82). -/
def decode (m : Mode) (b : Byte) : Instr :=
  selectRow m b .cfgBegin .stateBegin .idleIgnore .cfgData .stateEnd .stateData

/-- The mode and byte that select an operation, by the rows of R82; the operations of R99 have none. -/
def encode : Instr → Option (Mode × Byte)
  | .cfgBegin => some (.idle, 0x80#8)
  | .stateBegin => some (.idle, 0x81#8)
  | .idleIgnore b => some (.idle, b)
  | .cfgData b => some (.receivingConfig, b)
  | .stateEnd => some (.receivingState, 0x82#8)
  | .stateData b => some (.receivingState, b)
  | .feed _ => none
  | .phaseOf _ => none
  | .tick _ => none
  | .target _ => none
  | .emit _ => none
  | .word _ _ _ => none
  | .emitDirectBoard _ _ => none
  | .dataByte _ _ => none
  | .emitRegaddrBoard _ _ => none
  | .apply _ => none
  | .step _ _ => none

/-- `CFG(u, i, d, p)` of R98: 0x80 and the four durations, low byte first (R53, R84). -/
def cfgFrame (c : TimingConfig) : List Byte :=
  [0x80#8, loByte c.up, hiByte c.up, loByte c.inter, hiByte c.inter, loByte c.down, hiByte c.down,
    loByte c.pause, hiByte c.pause]

/-- `STATE(b0, …, bn)` of R98. -/
def stateFrame (bs : List Byte) : List Byte := 0x81#8 :: bs ++ [0x82#8]

/-- The data byte with index `cnt` that a host sends for the vector `v`: bit `j` is bridge
`base + j`, unused bits zero (R54, R86, R87). -/
def stateByte (m : StateMap) (v : List Bool) (cnt : Nat) : Byte :=
  ((List.range (m.width cnt)).map fun j =>
    if v.getD (m.base cnt + j) false then 1#8 <<< j else 0#8).foldl (· ||| ·) 0#8

/-- The mode under which a table word, which carries no mode, is read: the sentinel 0x82 has a row of
its own only in RECEIVING_STATE; every other byte is read in the mode the machine has after reset,
IDLE (R82, R38; log entry 12). -/
def tableMode (w : Nat) : Mode := if w = 0x82 then .receivingState else .idle

/-- The operation the decoder reads from a table word: one byte, whatever the row's width (R80). -/
def decodeTableWord (_nbits w : Nat) : Option Instr :=
  if w < 256 then some (decode (tableMode w) (BitVec.ofNat 8 w)) else none

end Sys2Proof
end

