-- ==== Sys2Proof/Machine/State.lean ====
section
/-! DEFINITION. Everything the spec gives the machine (10_state.md), the parameter record it runs under
(00_scope.md R7, R8), the model's own output and input fields, and reset (R38). -/

namespace Sys2Proof.Machine

/-- Why an operation given bad operands stops. No operation the block itself performs ever does
(60_exceptions.md R200): STEP answers a next state in every state. -/
inductive Fault where
  /-- Raised by EMIT_DIRECT_BOARD and EMIT_REGADDR_BOARD run with a board index at or above N_BOARDS,
  which R51 says does not exist. Safe: the machine stops where the spec gives no effect. -/
  | noSuchBoard
  /-- Raised by EMIT_DIRECT_BOARD and EMIT_REGADDR_BOARD run with a target vector that has no element
  at an index the operation reads (R160 gives it N elements). Safe, as above. -/
  | noSuchBridge
  deriving DecidableEq, Repr

/-- Why an operation is rejected. -/
inductive Refusal where
  /-- An operation without a meaning yet, rejected by its mnemonic in its arm of exec. Safe. No arm
  uses it: every operation has its meaning. -/
  | notModelled (mnemonic : String)
  deriving DecidableEq, Repr

/-- The registers of 10_state.md, the parameter record, and the model's own output and input fields. The
block has no memory, no program counter and no flags (R33, R34, R50; log entry 14). -/
structure State where
  /-- The parameters of R8, constant for the whole life of a run (R7; log entry 1). -/
  par : Params
  /-- `D`, the bridge-state latch (R20). -/
  latch : List Bool
  /-- `cfg`, the active TimingConfig (R23). -/
  cfg : TimingConfig
  /-- DecoderMode (R26). -/
  mode : Mode
  /-- The byte counter of the current frame, unbounded (R31). -/
  cnt : Nat
  /-- The configuration accumulator (R27). -/
  acc : TimingConfig
  /-- The phase last emitted, `none` for NONE (R29). -/
  last : Option Phase
  /-- `S`, the shadow vector (R30; log entry 8). -/
  shadow : List Bool
  /-- The select lines, true = asserted (R32). -/
  sel : List Bool
  /-- The enable line (R32). -/
  en : Bool
  /-- The model's own: the bus trace since reset, oldest event first (R13; log entry 5). -/
  trace : List BusEvent
  /-- The model's own: what the operation run last returned (log entry 6). -/
  ret : Ret
  /-- The model's own: the environment's next inputs, in order (R193; log entry 3). -/
  env : List EnvInput
  /-- The model's own: how many inputs were drawn from the free environment (log entry 3). -/
  draws : Nat
  deriving DecidableEq, Repr

/-- The reset state of R38 for a machine with parameters `p`. -/
def State.resetWith (p : Params) : State :=
  { par := p
    latch := List.replicate p.nBridges false
    cfg := TimingConfig.zero
    mode := .idle
    cnt := 0
    acc := TimingConfig.zero
    last := none
    shadow := List.replicate p.nBridges false
    sel := List.replicate p.nBoards false
    en := true
    trace := []
    ret := .unit
    env := []
    draws := 0 }

/-- The machine right after reset (R38, R230), with the parameters of log entry 1. -/
def State.reset : State := State.resetWith Params.representative

end Sys2Proof.Machine
end

