-- ==== Sys2Proof/Machine/Ops.lean ====
section
/-! DEFINITION. The named operations over registers and outputs that the meanings share: the output
primitives of 00_scope.md R11, the select bracket (42_bitpacker.md R165), the vector a state frame
writes (40_frame_decoder.md), the hard stop (R120, R207: the nearest thing to a trap; the block has no
exception and no return from one, R200, R215), returning a value, and taking the environment's next
input (43_controller.md R193). -/

namespace Sys2Proof.Machine

/-- An operation's outcome. -/
abbrev Result := Host.Outcome State Fault Refusal

/-- Run `f` on the next state, stopping where the first operation stopped. -/
def andThen (o : Result) (f : State → Result) : Result :=
  match o with
  | .next s => f s
  | .fault r => .fault r
  | .refused r => .refused r

/-- Hand back the value of the operation (log entry 6). -/
def returning (r : Ret) (s : State) : State := { s with ret := r }

/-- The event a FEED returned; an operation that returned no event counts as None (R34). -/
def eventOf : Ret → DecoderEvent
  | .event e => e
  | .unit => .none
  | .phase _ => .none
  | .target _ => .none
  | .word _ => .none
  | .byte _ => .none

/-- Append one event to the bus trace (R13). -/
def output (e : BusEvent) (s : State) : State := { s with trace := s.trace ++ [e] }

/-- `BusSelect(k)` asserts select line `k` (R11, R32). -/
def busSelect (k : Nat) (s : State) : State := output (.select k) { s with sel := s.sel.set k true }

/-- `BusShift(b)` hands byte `b` to the transfer primitive (R11). -/
def busShift (b : Byte) (s : State) : State := output (.shift b) s

/-- `BusDeselect(k)` deasserts select line `k` (R11, R32). -/
def busDeselect (k : Nat) (s : State) : State := output (.deselect k) { s with sel := s.sel.set k false }

/-- `Diag()` emits one diagnostic event (R11, R212). -/
def diag (s : State) : State := output .diag s

/-- One bracket: select, the bytes in order, deselect (R165). -/
def bracket (k : Nat) (bytes : List Byte) (s : State) : State :=
  busDeselect k (bytes.foldl (fun s b => busShift b s) (busSelect k s))

/-- Choose by the commit policy (R126). -/
def byCommit {α : Type} (s : State) (incremental atFrameEnd : α) : α :=
  match s.par.stateCommit with
  | .incremental => incremental
  | .atFrameEnd => atFrameEnd

/-- `V`, the vector a state frame writes: `D` under INCREMENTAL, `S` under AT_FRAME_END (R30). -/
def frameVector (s : State) : List Bool := byCommit s s.latch s.shadow

/-- Write `V` (R30). -/
def setFrameVector (v : List Bool) (s : State) : State :=
  { s with latch := byCommit s v s.latch, shadow := byCommit s s.shadow v }

/-- The hard stop: discard the byte, one Diag, mode IDLE, no event; nothing else changes (R120, R207). -/
def hardStop (s : State) : State := returning (.event .none) { diag s with mode := .idle }

/-- The input of the next STEP: the head of the script, or the free environment's choice (R193). -/
def nextInput (s : State) : EnvInput :=
  match s.env with
  | e :: _ => e
  | [] => ⟨Config.freeByte s.draws, Config.freeNow s.draws⟩

/-- The state once the next input has been taken (R67: in order, none skipped). -/
def takeInput (s : State) : State :=
  match s.env with
  | _ :: rest => { s with env := rest }
  | [] => { s with draws := s.draws + 1 }

/-- Put an input in front of the environment's script. -/
def pushInput (e : EnvInput) (s : State) : State := { s with env := e :: s.env }

end Sys2Proof.Machine
end

