-- ==== Sys2Proof/Machine/FrameDecoder.lean ====
section
/-! DEFINITION. FrameDecoder, the load operations (40_frame_decoder.md): the six input-byte operations and
FEED, which selects one of them. An operation run by itself has its pseudocode's effect in any mode;
the mode is tested where the operation is selected, in FEED (log entry 7). -/

namespace Sys2Proof.Machine

/-- CFG_BEGIN (R110). -/
def cfgBegin (s : State) : State :=
  returning (.event .none) { s with mode := .receivingConfig, acc := TimingConfig.zero, cnt := 0 }

def execCfgBegin (s : State) : Result := .next (cfgBegin s)

/-- `if STATE_COMMIT = AT_FRAME_END then S <- D` (R111). -/
def loadShadow (s : State) : State := { s with shadow := byCommit s s.shadow s.latch }

/-- `if CLEAR_ON_STATE_BEGIN then V[i] <- false` for i from 0 to N - 1 (R111). -/
def clearFrameVector (s : State) : State :=
  setFrameVector
    (if s.par.clearOnStateBegin then List.replicate s.par.nBridges false else frameVector s) s

/-- STATE_BEGIN (R111). -/
def stateBegin (s : State) : State :=
  returning (.event .none) (clearFrameVector (loadShadow { s with mode := .receivingState, cnt := 0 }))

def execStateBegin (s : State) : Result := .next (stateBegin s)

/-- IDLE_IGNORE (R112): no state changes at all. -/
def idleIgnore (_b : Byte) (s : State) : State := returning (.event .none) s

def execIdleIgnore (b : Byte) (s : State) : Result := .next (idleIgnore b s)

/-- The latch at the 8th byte: all four durations at once, mode IDLE, ConfigReady (R114, R115). -/
def latchConfig (s : State) : State :=
  returning (.event (.configReady s.acc)) { s with cfg := s.acc, mode := .idle }

/-- CFG_DATA (R114). -/
def cfgData (b : Byte) (s : State) : State :=
  let s1 := { s with acc := s.acc.setByte s.cnt b, cnt := s.cnt + 1 }
  if s1.cnt = 8 then latchConfig s1 else returning (.event .none) s1

def execCfgData (b : Byte) (s : State) : Result := .next (cfgData b s)

/-- `if STATE_COMMIT = AT_FRAME_END then D <- S` (R118). -/
def commitShadow (s : State) : State := { s with latch := byCommit s s.latch s.shadow }

/-- STATE_END (R118): the event carries `D` after the operation. -/
def stateEnd (s : State) : State :=
  let s1 := { commitShadow s with mode := .idle }
  returning (.event (.stateReady s1.latch)) s1

def execStateEnd (s : State) : Result := .next (stateEnd s)

/-- An accepted state data byte: its used bits are written to `V`, then `cnt` counts it (R119, R121). -/
def acceptStateByte (b : Byte) (s : State) : State :=
  let base := s.par.stateMap.base s.cnt
  let w := s.par.stateMap.width s.cnt
  let s1 := setFrameVector (writeFlags s.par.nBridges base w b (frameVector s)) s
  returning (.event .none) { s1 with cnt := s.cnt + 1 }

/-- STATE_DATA (R119), with the hard stop of R120. -/
def stateData (b : Byte) (s : State) : State :=
  if s.par.overLimit s.cnt then hardStop s else acceptStateByte b s

def execStateData (b : Byte) (s : State) : Result := .next (stateData b s)

/-- FEED (R113): performs the one operation that the table of R82 selects and returns its event. -/
def feed (b : Byte) (s : State) : State :=
  selectRow s.mode b (cfgBegin s) (stateBegin s) (idleIgnore · s) (cfgData · s) (stateEnd s) (stateData · s)

def execFeed (b : Byte) (s : State) : Result := .next (feed b s)

end Sys2Proof.Machine
end

