-- ==== Sys2Proof/Machine/BitPacker.lean ====
section
/-! DEFINITION. BitPacker (42_bitpacker.md): the target vector, EMIT, and both encodings. -/

namespace Sys2Proof.Machine

/-- One element of the target vector (R160). -/
def targetOf (ph : Phase) (on : Bool) : BridgeState :=
  match ph with
  | .pulseForward => if on then .forward else .off
  | .pulseReverse => if on then .reverse else .off
  | .idleAfterForward => .off
  | .idleAfterReverse => .off

/-- TARGET (R160): N BridgeStates. -/
def targetVector (p : Params) (ph : Phase) (latch : List Bool) : List BridgeState :=
  (List.range p.nBridges).map fun i => targetOf ph (latch.getD i false)

def execTarget (ph : Phase) (s : State) : Result :=
  .next (returning (.target (targetVector s.par ph s.latch)) s)

/-- The direction code of a bridge that is not OFF (R92). -/
def dirCode (p : Params) (t : BridgeState) : BitVec 2 :=
  match t with
  | .off => 0b00
  | .forward => p.dirFwd
  | .reverse => p.dirRev

/-- Bit `i` of a word, set or not. -/
def bitAt (i : Fin 16) (on : Bool) : Word := if on then 1#16 <<< i.val else 0#16

/-- What local bridge `k` contributes to the word: the enable bit replicated and the direction pair
(R91, R92, R162). -/
def contribution (p : Params) (k : Fin 3) (t : BridgeState) : Word :=
  let on := decide (t ≠ .off)
  bitAt p.layout.enHi[k] on ||| bitAt p.layout.enLo[k] on |||
    bitAt p.layout.dirHi[k] ((dirCode p t).getLsbD 1) ||| bitAt p.layout.dirLo[k] ((dirCode p t).getLsbD 0)

/-- WORD (R162): the bitwise OR of one contribution per bridge. -/
def directWord (p : Params) (t0 t1 t2 : BridgeState) : Word :=
  contribution p 0 t0 ||| contribution p 1 t1 ||| contribution p 2 t2

def execWord (t0 t1 t2 : BridgeState) (s : State) : Result :=
  .next (returning (.word (directWord s.par t0 t1 t2)) s)

/-- The word of chip `c` of board `board` (R163). -/
def chipWord (p : Params) (t : List BridgeState) (board c : Nat) : Word :=
  let bridge := fun k => t.getD (bridgeIndex 3 (p.globalChip board c) k) .off
  directWord p (bridge 0) (bridge 1) (bridge 2)

/-- The two bytes of a word, high byte first (R55, R91). -/
def wordBytes (w : Word) : List Byte := [hiByte w, loByte w]

/-- The bytes of one DIRECT frame (R93, R163). -/
def directBytes (p : Params) (t : List BridgeState) (board : Nat) : List Byte :=
  p.chipsDescending.flatMap fun c => wordBytes (chipWord p t board c)

/-- EMIT_DIRECT_BOARD (R163): one bracket. -/
def emitDirectBoard (board : Nat) (t : List BridgeState) (s : State) : State :=
  returning .unit (bracket board (directBytes s.par t board) s)

/-- Run a per-board emitter on operands that exist: a board below N_BOARDS (R51) and a target vector
that has the elements of the board's `perChip`-bridge chips (R160; log entry 11). -/
def onBoard (perChip board : Nat) (t : List BridgeState) (s : State) (f : State → State) : Result :=
  if s.par.nBoards ≤ board then .fault .noSuchBoard
  else if t.length < perChip * (s.par.globalChip board s.par.chipsPerBoard) then .fault .noSuchBridge
  else .next (f s)

def execEmitDirectBoard (board : Nat) (t : List BridgeState) (s : State) : Result :=
  onBoard 3 board t s (emitDirectBoard board t)

/-- `nib` of R95. -/
def nibble (p : Params) (t : BridgeState) : BitVec 4 :=
  match t with
  | .off => 0b0000
  | .forward => p.nibFwd
  | .reverse => p.nibRev

/-- DATA_BYTE (R168): `nib(to) ++ nib(te)`. -/
def regData (p : Params) (te tOdd : BridgeState) : Byte :=
  joinNibbles (nibble p tOdd) (nibble p te)

def execDataByte (te tOdd : BridgeState) (s : State) : Result :=
  .next (returning (.byte (regData s.par te tOdd)) s)

/-- The data byte of register `r` of chip `c` of a board (R95, R170). -/
def chipRegData (p : Params) (t : List BridgeState) (board : Nat) (r : Fin 3) (c : Nat) : Byte :=
  let bridge := fun k => t.getD (bridgeIndex 6 (p.globalChip board c) k) .off
  regData p (bridge (2 * r.val)) (bridge (2 * r.val + 1))

/-- The bytes of one REGADDR frame: all address bytes, then all data bytes, both with the highest chip
first; the `last` flag is on chip 0's address byte (R96, R170, R171). -/
def regaddrBytes (p : Params) (t : List BridgeState) (board : Nat) (r : Fin 3) : List Byte :=
  (p.chipsDescending.map fun c => p.addrByte r (decide (c = 0))) ++
    p.chipsDescending.map (chipRegData p t board r)

/-- The three registers of a REGADDR chip, ascending (R96). -/
def registers : List (Fin 3) := [0, 1, 2]

/-- EMIT_REGADDR_BOARD (R170): three brackets, one per register. -/
def emitRegaddrBoard (board : Nat) (t : List BridgeState) (s : State) : State :=
  returning .unit (registers.foldl (fun s r => bracket board (regaddrBytes s.par t board r) s) s)

def execEmitRegaddrBoard (board : Nat) (t : List BridgeState) (s : State) : Result :=
  onBoard 6 board t s (emitRegaddrBoard board t)

/-- One board's frames in the machine's encoding (R161, R164). -/
def emitBoard (board : Nat) (t : List BridgeState) (s : State) : State :=
  match s.par.encoding with
  | .direct => emitDirectBoard board t s
  | .regaddr => emitRegaddrBoard board t s

/-- EMIT (R161): the target vector once, then every board in ascending order. -/
def emit (ph : Phase) (s : State) : State :=
  let t := targetVector s.par ph s.latch
  returning .unit ((List.range s.par.nBoards).foldl (fun s board => emitBoard board t s) s)

def execEmit (ph : Phase) (s : State) : Result := .next (emit ph s)

end Sys2Proof.Machine
end

