-- ==== Sys2Proof/Machine/Flags.lean ====
section
/-! DEFINITION. The block has no status flags and no condition codes (10_state.md R34). What stands in
their place are the two conditions TICK computes: suppression of a short pulse (41_scheduler.md R144)
and whether a phase is due for emission (R143). -/

namespace Sys2Proof.Machine

/-- `suppressed(ph, cfg)` of R144: MIN_PULSE is on and the pulse's own duration is below it. -/
def suppressed (p : Params) (c : TimingConfig) (ph : Phase) : Bool :=
  match ph with
  | .pulseForward => decide (0 < p.minPulse.toNat ∧ c.up.toNat < p.minPulse.toNat)
  | .pulseReverse => decide (0 < p.minPulse.toNat ∧ c.down.toNat < p.minPulse.toNat)
  | .idleAfterForward => false
  | .idleAfterReverse => false

/-- The test `EMIT_POLICY = ALWAYS or ph != last` of R143; NONE differs from every phase. -/
def emissionDue (p : Params) (last : Option Phase) (ph : Phase) : Bool :=
  decide (p.emitPolicy = .always ∨ last ≠ some ph)

end Sys2Proof.Machine
end

