-- ==== Sys2Proof/Machine/Scheduler.lean ====
section
/-! DEFINITION. WaveformScheduler (41_scheduler.md): PHASE_OF and TICK. -/

namespace Sys2Proof.Machine

/-- The boundaries b1, b2, b3 and the period P: exact sums (R140, R145). -/
def boundary1 (c : TimingConfig) : Nat := c.up.toNat
def boundary2 (c : TimingConfig) : Nat := boundary1 c + c.inter.toNat
def boundary3 (c : TimingConfig) : Nat := boundary2 c + c.down.toNat
def period (c : TimingConfig) : Nat := boundary3 c + c.pause.toNat

/-- The phase at position `e` of the period (R140). -/
def phaseAt (c : TimingConfig) (e : Nat) : Phase :=
  if e < boundary1 c then .pulseForward
  else if e < boundary2 c then .idleAfterForward
  else if e < boundary3 c then .pulseReverse
  else .idleAfterReverse

/-- PHASE_OF (R140); the zero period gives IDLE_AFTER_REVERSE (R142). -/
def phaseOf (p : Params) (c : TimingConfig) (now : Nat) : Phase :=
  if period c = 0 then .idleAfterReverse else phaseAt c (p.reading now % period c)

def execPhaseOf (now : Nat) (s : State) : Result :=
  .next (returning (.phase (phaseOf s.par s.cfg now)) s)

/-- TICK (R143): emit the computed phase unless it is suppressed (R144) or not due. -/
def tick (now : Nat) (s : State) : State :=
  let ph := phaseOf s.par s.cfg now
  returning .unit <|
    if suppressed s.par s.cfg ph then s
    else if emissionDue s.par s.last ph then { emit ph s with last := some ph }
    else s

def execTick (now : Nat) (s : State) : Result := .next (tick now s)

end Sys2Proof.Machine
end

