-- ==== Sys2Proof/Machine/Controller.lean ====
section
/-! DEFINITION. Controller (43_controller.md): APPLY and STEP. -/

namespace Sys2Proof.Machine

/-- APPLY (R191). -/
def applyEvent (ev : DecoderEvent) (s : State) : State :=
  returning .unit <|
    match ev with
    | .none => s
    | .configReady c => { s with cfg := c }
    | .stateReady v => { s with latch := v }

def execApply (ev : DecoderEvent) (s : State) : Result := .next (applyEvent ev s)

/-- FEED and APPLY of the STEP's input byte, if there is one (R190). -/
def serveInput (inp : Option Byte) (s : State) : State :=
  match inp with
  | none => s
  | some b => let s1 := feed b s; applyEvent (eventOf s1.ret) s1

/-- STEP (R190): the byte first, then exactly one TICK. -/
def controllerStep (inp : Option Byte) (now : Nat) (s : State) : State := tick now (serveInput inp s)

def execStep (inp : Option Byte) (now : Nat) (s : State) : Result := .next (controllerStep inp now s)

end Sys2Proof.Machine
end

