-- ==== Sys2Proof/Machine/Dispatch.lean ====
section
/-! DEFINITION. exec: one arm per operation, each a direct call of its meaning. -/

namespace Sys2Proof.Machine

/-- The meaning of each operation. -/
def exec (i : Instr) (s : State) : Host.Outcome State Fault Refusal :=
  match i with
  -- FrameDecoder (40_frame_decoder.md)
  | .cfgBegin => Sys2Proof.Machine.execCfgBegin s
  | .stateBegin => Sys2Proof.Machine.execStateBegin s
  | .idleIgnore b => Sys2Proof.Machine.execIdleIgnore b s
  | .cfgData b => Sys2Proof.Machine.execCfgData b s
  | .stateEnd => Sys2Proof.Machine.execStateEnd s
  | .stateData b => Sys2Proof.Machine.execStateData b s
  | .feed b => Sys2Proof.Machine.execFeed b s
  -- WaveformScheduler (41_scheduler.md)
  | .phaseOf now => Sys2Proof.Machine.execPhaseOf now s
  | .tick now => Sys2Proof.Machine.execTick now s
  -- BitPacker (42_bitpacker.md)
  | .target ph => Sys2Proof.Machine.execTarget ph s
  | .emit ph => Sys2Proof.Machine.execEmit ph s
  | .word t0 t1 t2 => Sys2Proof.Machine.execWord t0 t1 t2 s
  | .emitDirectBoard board t => Sys2Proof.Machine.execEmitDirectBoard board t s
  | .dataByte te tOdd => Sys2Proof.Machine.execDataByte te tOdd s
  | .emitRegaddrBoard board t => Sys2Proof.Machine.execEmitRegaddrBoard board t s
  -- Controller (43_controller.md)
  | .apply ev => Sys2Proof.Machine.execApply ev s
  | .step inp now => Sys2Proof.Machine.execStep inp now s

end Sys2Proof.Machine
end

