-- ==== Sys2Proof/Machine/Step.lean ====
section
/-! DEFINITION. One step of the machine is one STEP of the Controller with the environment's next input
(43_controller.md R190, R193, R194). -/

namespace Sys2Proof.Machine

/-- Take the environment's next input and perform STEP with it. -/
def step (s : State) : Host.Outcome State Fault Refusal :=
  exec (.step (nextInput s).byte (nextInput s).now) (takeInput s)

/-- The state whose next STEP is fed the byte of a table word, in the mode the word is read under
(log entries 12 and 13). What `now` reads at that STEP the spec leaves to the environment (R193, U18):
the model's choice (DESIGN CHOICE, log entry 21) is the next free draw, and the draw is counted here, so
that neither another placed word nor a drawn STEP reads the same draw again. -/
def State.withFetchWord (s : State) (_nbits w : Nat) : State :=
  { pushInput ⟨some (BitVec.ofNat 8 w), Config.freeNow s.draws⟩ s with
    mode := tableMode w, draws := s.draws + 1 }

end Sys2Proof.Machine
end

