-- ==== Sys2Proof/Safety.lean ====
section
/-! DEFINITION. The terms claims are stated in: the configuration fields by index, the bracketing of a bus
trace (42_bitpacker.md R165), running FEED on a byte list, and the invariant every STEP keeps. -/

namespace Sys2Proof

/-- The four durations by field index (30_encoding.md R84). -/
def TimingConfig.fields (c : TimingConfig) : List Word := [c.up, c.inter, c.down, c.pause]

/-- The four positions of local bridge `k` in a DIRECT word: its enable pair and its direction pair (R91). -/
def DirectLayout.ofBridge (l : DirectLayout) (k : Fin 3) : List (Fin 16) :=
  [l.enHi[k], l.enLo[k], l.dirHi[k], l.dirLo[k]]

/-- Whether an event hands over a byte. -/
def BusEvent.isShift : BusEvent → Bool
  | .select _ => false
  | .shift _ => true
  | .deselect _ => false
  | .diag => false

/-- Whether an event opens a bracket. -/
def BusEvent.isSelect : BusEvent → Bool
  | .select _ => true
  | .shift _ => false
  | .deselect _ => false
  | .diag => false

/-- Follow the select lines through a trace. `some none`: every line deasserted; `some (some k)`:
line `k` alone asserted; `none`: a rule of R165 or R67 was broken (a line asserted while another is, a
byte shifted or a Diag emitted at the wrong moment, a line deasserted that is not asserted, a line at or
above `n`). -/
def trackSelect (n : Nat) (now : Option (Option Nat)) (e : BusEvent) : Option (Option Nat) :=
  match now, e with
  | some none, .select k => if k < n then some (some k) else none
  | some none, .diag => some none
  | some (some k), .shift _ => some (some k)
  | some (some k), .deselect j => if j = k then some none else none
  | some none, .shift _ => none
  | some none, .deselect _ => none
  | some (some _), .select _ => none
  | some (some _), .diag => none
  | none, _ => none

/-- Every event of the trace stands where R165 and R67 allow it, on lines below `n`, and every bracket is
closed at its end. -/
abbrev Bracketed (n : Nat) (tr : List BusEvent) : Prop :=
  tr.foldl (trackSelect n) (some none) = some none

/-- Which bit of the data byte with index `cnt` carries bridge `i`, if any: the table of R86 and the
rule of R87 read from the bridge's side. -/
def flagBit (m : StateMap) (cnt i : Nat) : Option Nat :=
  match m with
  | .unit9 =>
      if i / 9 = cnt / 2 then
        if cnt % 2 = 0 then (if i % 9 < 7 then some (i % 9) else none)
        else (if 7 ≤ i % 9 then some (i % 9 - 7) else none)
      else none
  | .flat6 => if i / 6 = cnt then some (i % 6) else none
  | .flat8 => if i / 8 = cnt then some (i % 8) else none

/-- `new` is `old` with the flags that the data byte `b` with index `cnt` carries written into it
(R119): covered bridges take their bit, the others keep their value. -/
def FlagsWritten (m : StateMap) (cnt : Nat) (b : Byte) (old new : List Bool) : Prop :=
  new.length = old.length ∧
  ∀ i, i < old.length →
    new[i]? = match flagBit m cnt i with
      | some j => some (b.getLsbD j)
      | none => old[i]?

namespace Machine

/-- The registers the FrameDecoder owns (R26, R27, R30, R31) and the two it loads (R20, R23). -/
def SameDecoderState (s t : State) : Prop :=
  t.latch = s.latch ∧ t.cfg = s.cfg ∧ t.mode = s.mode ∧ t.cnt = s.cnt ∧ t.acc = s.acc ∧
  t.shadow = s.shadow

/-- The rest of State: parameters, outputs, `last`, the environment. -/
def SameOutside (s t : State) : Prop :=
  t.par = s.par ∧ t.last = s.last ∧ t.sel = s.sel ∧ t.en = s.en ∧ t.trace = s.trace ∧
  t.env = s.env ∧ t.draws = s.draws

/-- The pulse phase `ph` is short of MIN_PULSE under the machine's own configuration (R144). -/
def ShortPulse (s : State) (ph : Phase) : Prop :=
  0 < s.par.minPulse.toNat ∧
  ((ph = .pulseForward ∧ s.cfg.up.toNat < s.par.minPulse.toNat) ∨
   (ph = .pulseReverse ∧ s.cfg.down.toNat < s.par.minPulse.toNat))

/-- FEED a list of bytes, one after the other. -/
def feedList (bs : List Byte) (s : State) : Result :=
  bs.foldl (fun o b => andThen o (exec (.feed b))) (.next s)

/-- What holds in every state a run reaches, between two STEPs: `D` and `S` have N elements (R20, R30,
R121); every select line is deasserted (R32, R165); the enable line is high (R32, R214); a
configuration frame in progress has taken 0 to 7 bytes (R31); and the bus trace is bracketed (R165). -/
abbrev State.Inv (s : State) : Prop :=
  s.latch.length = s.par.nBridges ∧
  s.shadow.length = s.par.nBridges ∧
  s.sel = List.replicate s.par.nBoards false ∧
  s.en = true ∧
  (s.mode = .receivingConfig → s.cnt < 8) ∧
  Bracketed s.par.nBoards s.trace

end Machine

end Sys2Proof
end

