-- ==== Sys2Proof/WellFormed.lean ====
section
/-! DEFINITION. Which operands an operation admits on a machine with given parameters, and which
parameter records R8 and R9 admit. -/

namespace Sys2Proof

/-- N_BOARDS and CHIPS_PER_BOARD are at least 1 (R8, R9). -/
def Params.wf (p : Params) : Bool := decide (1 ≤ p.nBoards) && decide (1 ≤ p.chipsPerBoard)

/-- The operands of R82's byte ranges, of R210's readings, of R51's index spaces and of R20's and
R160's vectors of N elements. -/
def Instr.wf (p : Params) : Instr → Bool
  | .cfgBegin => true
  | .stateBegin => true
  | .idleIgnore b => decide (b ≠ 0x80#8 ∧ b ≠ 0x81#8)
  | .cfgData _ => true
  | .stateEnd => true
  | .stateData b => decide (b ≠ 0x82#8)
  | .feed _ => true
  | .phaseOf now => decide (now < 2 ^ p.timeWidth)
  | .tick now => decide (now < 2 ^ p.timeWidth)
  | .target _ => true
  | .emit _ => true
  | .word _ _ _ => true
  | .emitDirectBoard board t =>
      decide (p.encoding = .direct ∧ board < p.nBoards ∧ t.length = p.nBridges)
  | .dataByte _ _ => true
  | .emitRegaddrBoard board t =>
      decide (p.encoding = .regaddr ∧ board < p.nBoards ∧ t.length = p.nBridges)
  | .apply .none => true
  | .apply (.configReady _) => true
  | .apply (.stateReady v) => decide (v.length = p.nBridges)
  | .step _ now => decide (now < 2 ^ p.timeWidth)

end Sys2Proof
end

