-- ==== Sys2Proof/Certificates/Slice0/Obligations.lean ====
section
/-! DEFINITION. The statements for the provers. Each docstring names the rule of spec/ it formalises. Where a
statement rests on a rule the spec marks as its own decision (D<n> of 92_eei_decisions.md) or as
derived, the docstring says so and the statement's basis is 'derived'. Every parameter of R8 is a
variable of every statement: it is a field of the state's constant record `par`. -/

open Sys2Proof Sys2Proof.Machine

/-! ### Encoding and decoding -/

/-- R82: the complete decode table; it is total and its rows do not overlap. -/
def Obligations.DecodeTableSelectsOneOperation : Prop :=
  decode .idle 0x80#8 = .cfgBegin ∧
  decode .idle 0x81#8 = .stateBegin ∧
  (∀ b, b ≠ 0x80#8 → b ≠ 0x81#8 → decode .idle b = .idleIgnore b) ∧
  (∀ b, decode .receivingConfig b = .cfgData b) ∧
  decode .receivingState 0x82#8 = .stateEnd ∧
  (∀ b, b ≠ 0x82#8 → decode .receivingState b = .stateData b)

/-- Section 1 of 30_encoding.md: decoding the mode and byte of a well-formed operation gives it back, and
every mode and byte are those of the well-formed operation they decode to. -/
def Obligations.DecodeAndEncodeAgree : Prop :=
  (∀ (p : Params) (i : Instr) (m : Mode) (b : Byte),
    i.wf p = true → encode i = some (m, b) → decode m b = i) ∧
  (∀ (p : Params) (m : Mode) (b : Byte),
    (decode m b).wf p = true ∧ encode (decode m b) = some (m, b))

/-- Words written out bit by bit from the match values of R81 and R82. A table word carries no mode; the
mode it is read under is the model's choice (log entry 12). -/
def Obligations.TableWordsDecode : Prop :=
  decodeTableWord 8 0b10000000 = some .cfgBegin ∧
  decodeTableWord 8 0b10000001 = some .stateBegin ∧
  decodeTableWord 8 0b10000010 = some .stateEnd ∧
  decodeTableWord 8 0b00000000 = some (.idleIgnore 0x00#8) ∧
  decodeTableWord 8 0b11111111 = some (.idleIgnore 0xFF#8) ∧
  decode .receivingConfig 0b10000000#8 = .cfgData 0x80#8 ∧
  decode .receivingState 0b10000001#8 = .stateData 0x81#8 ∧
  decodeTableWord 16 256 = none

/-! ### FrameDecoder -/

/-- R113: FEED performs the one operation the table selects and returns its event; it neither reads nor
writes `last`, `sel`, `en`, and produces at most one Diag and no other event. -/
def Obligations.FeedRunsOneDecodedOperation : Prop :=
  ∀ (b : Byte) (s : State), ∃ (t : State) (e : DecoderEvent),
    exec (.feed b) s = .next t ∧
    exec (decode s.mode b) s = .next t ∧
    t.ret = .event e ∧
    t.par = s.par ∧ t.last = s.last ∧ t.sel = s.sel ∧ t.en = s.en ∧ t.env = s.env ∧
    t.draws = s.draws ∧
    (t.trace = s.trace ∨ t.trace = s.trace ++ [.diag]) ∧
    (∀ (last : Option Phase) (sel : List Bool) (en : Bool),
      exec (.feed b) { s with last := last, sel := sel, en := en } =
        .next { t with last := last, sel := sel, en := en })

/-- R110: CFG_BEGIN, whole; nothing it does not name changes. A byte 0x80 selects it only in IDLE. -/
def Obligations.CfgBeginOpensConfigurationFrame : Prop :=
  (∀ s : State, exec .cfgBegin s =
    .next { s with mode := .receivingConfig, acc := ⟨0, 0, 0, 0⟩, cnt := 0, ret := .event .none }) ∧
  (∀ s : State, s.mode = .idle → exec (.feed 0x80#8) s = exec .cfgBegin s) ∧
  (∀ s : State, s.mode = .receivingConfig → exec (.feed 0x80#8) s = exec (.cfgData 0x80#8) s) ∧
  (∀ s : State, s.mode = .receivingState → exec (.feed 0x80#8) s = exec (.stateData 0x80#8) s)

/-- R111 (the options are the spec's decisions D20 and D21): STATE_BEGIN under each policy. -/
def Obligations.StateBeginFollowsPolicies : Prop :=
  ∀ s : State, exec .stateBegin s = .next
    { s with
      mode := .receivingState
      cnt := 0
      latch :=
        if s.par.stateCommit = .incremental ∧ s.par.clearOnStateBegin = true
        then List.replicate s.par.nBridges false else s.latch
      shadow :=
        if s.par.stateCommit = .atFrameEnd then
          (if s.par.clearOnStateBegin = true then List.replicate s.par.nBridges false else s.latch)
        else s.shadow
      ret := .event .none }

/-- R112: in IDLE every byte but the two start markers changes nothing at all; the sentinel is one. -/
def Obligations.IdleIgnoresOtherBytes : Prop :=
  (∀ (b : Byte) (s : State), exec (.idleIgnore b) s = .next { s with ret := .event .none }) ∧
  (∀ (b : Byte) (s : State), s.mode = .idle → b ≠ 0x80#8 → b ≠ 0x81#8 →
    exec (.feed b) s = .next { s with ret := .event .none }) ∧
  (∀ s : State, s.mode = .idle → exec (.feed 0x82#8) s = .next { s with ret := .event .none })

/-- R114, R84: every byte of a configuration frame is data; CFG_DATA fills one byte of one field, counts, and on the 8th byte alone latches all four
durations and returns to IDLE. -/
def Obligations.CfgDataFillsOneByteAndLatchesOnTheEighth : Prop :=
  (∀ (b : Byte) (s : State), s.mode = .receivingConfig → exec (.feed b) s = exec (.cfgData b) s) ∧
  ∀ (b : Byte) (s : State), s.cnt < 8 →
    ∃ acc : TimingConfig,
      (∀ f, f < 4 → ∀ old new : Word, s.acc.fields[f]? = some old → acc.fields[f]? = some new →
        (s.cnt = 2 * f → new.extractLsb' 0 8 = b ∧ new.extractLsb' 8 8 = old.extractLsb' 8 8) ∧
        (s.cnt = 2 * f + 1 → new.extractLsb' 8 8 = b ∧ new.extractLsb' 0 8 = old.extractLsb' 0 8) ∧
        (s.cnt ≠ 2 * f → s.cnt ≠ 2 * f + 1 → new = old)) ∧
      (s.cnt < 7 → exec (.cfgData b) s =
        .next { s with acc := acc, cnt := s.cnt + 1, ret := .event .none }) ∧
      (s.cnt = 7 → exec (.cfgData b) s =
        .next { s with acc := acc, cnt := 8, cfg := acc, mode := .idle, ret := .event (.configReady acc) })

/-- R84, R53: the nine bytes of CFG(u, i, d, p) sent in IDLE load exactly those four durations, whatever
they are, and change nothing else. -/
def Obligations.ConfigurationFrameLoadsItsDurations : Prop :=
  ∀ (c : TimingConfig) (s : State), s.mode = .idle →
    feedList (cfgFrame c) s =
      .next { s with cfg := c, acc := c, cnt := 8, mode := .idle, ret := .event (.configReady c) }

/-- R119, R86: an accepted data byte writes the bridges its index covers, ones and zeros, into `D` or `S`
by the commit policy, counts itself, and changes nothing else. -/
def Obligations.StateDataWritesTheBridgesItCovers : Prop :=
  ∀ (b : Byte) (s : State),
    s.latch.length = s.par.nBridges → s.shadow.length = s.par.nBridges →
    (∀ limit, s.par.unitLimit = some limit → s.par.stateMap.unit s.cnt < limit) →
    (s.par.stateCommit = .incremental → ∃ v, FlagsWritten s.par.stateMap s.cnt b s.latch v ∧
      exec (.stateData b) s = .next { s with latch := v, cnt := s.cnt + 1, ret := .event .none }) ∧
    (s.par.stateCommit = .atFrameEnd → ∃ v, FlagsWritten s.par.stateMap s.cnt b s.shadow v ∧
      exec (.stateData b) s = .next { s with shadow := v, cnt := s.cnt + 1, ret := .event .none })

/-- R86: under UNIT9 the even byte of unit u carries bridges 9u to 9u + 6 in bits 0 to 6 and the odd byte
carries bridges 9u + 7 and 9u + 8 in bits 0 and 1; its other bits are ignored and every other bridge
keeps its value. `frameVector` is the vector the frame writes (R30). -/
def Obligations.Unit9BytesMapToBridges : Prop :=
  ∀ (b : Byte) (u : Nat) (s : State), s.par.stateMap = .unit9 →
    s.latch.length = s.par.nBridges → s.shadow.length = s.par.nBridges →
    (∀ limit, s.par.unitLimit = some limit → u < limit) →
    (s.cnt = 2 * u → ∃ t, exec (.stateData b) s = .next t ∧ ∀ i, i < s.par.nBridges →
      (∀ j, j < 7 → i = 9 * u + j → (frameVector t)[i]? = some (b.getLsbD j)) ∧
      ((∀ j, j < 7 → i ≠ 9 * u + j) → (frameVector t)[i]? = (frameVector s)[i]?)) ∧
    (s.cnt = 2 * u + 1 → ∃ t, exec (.stateData b) s = .next t ∧ ∀ i, i < s.par.nBridges →
      (∀ j, j < 2 → i = 9 * u + 7 + j → (frameVector t)[i]? = some (b.getLsbD j)) ∧
      ((∀ j, j < 2 → i ≠ 9 * u + 7 + j) → (frameVector t)[i]? = (frameVector s)[i]?))

/-- R121 (the spec's decision D18): a data byte all of whose bridges lie at or above N writes nothing. -/
def Obligations.StateDataPastTheLastBridgeWritesNothing : Prop :=
  ∀ (b : Byte) (s : State),
    s.par.nBridges ≤ s.par.stateMap.base s.cnt →
    (∀ limit, s.par.unitLimit = some limit → s.par.stateMap.unit s.cnt < limit) →
    exec (.stateData b) s = .next { s with cnt := s.cnt + 1, ret := .event .none }

/-- R120 (the spec's decision D19): at the unit limit the byte is discarded, one Diag is emitted and the
decoder returns to IDLE; `cnt`, `D`, `S`, `cfg` and all the rest are unchanged. -/
def Obligations.StateDataAtTheLimitHardStops : Prop :=
  ∀ (b : Byte) (s : State) (limit : Nat),
    s.par.unitLimit = some limit → limit ≤ s.par.stateMap.unit s.cnt →
    exec (.stateData b) s =
      .next { s with mode := .idle, trace := s.trace ++ [.diag], ret := .event .none }

/-- R118: STATE_END commits `S` under AT_FRAME_END, returns to IDLE and carries `D` as it then is. -/
def Obligations.StateEndCommitsAndReports : Prop :=
  (∀ s : State, s.par.stateCommit = .incremental → exec .stateEnd s =
    .next { s with mode := .idle, ret := .event (.stateReady s.latch) }) ∧
  (∀ s : State, s.par.stateCommit = .atFrameEnd → exec .stateEnd s =
    .next { s with latch := s.shadow, mode := .idle, ret := .event (.stateReady s.shadow) }) ∧
  (∀ s : State, s.mode = .receivingState → exec (.feed 0x82#8) s = exec .stateEnd s)

/-- R124: all transitions of `mode`, row by row, and no others: no operation outside the FrameDecoder (STEP
through its FEED apart) changes it. -/
def Obligations.ModeFollowsTheGraph : Prop :=
  (∀ (b : Byte) (s : State), ∃ t, exec (.feed b) s = .next t ∧
    (s.mode = .idle → b = 0x80#8 → t.mode = .receivingConfig) ∧
    (s.mode = .idle → b = 0x81#8 → t.mode = .receivingState) ∧
    (s.mode = .idle → b ≠ 0x80#8 → b ≠ 0x81#8 → t.mode = .idle) ∧
    (s.mode = .receivingConfig → s.cnt < 7 → t.mode = .receivingConfig) ∧
    (s.mode = .receivingConfig → s.cnt = 7 → t.mode = .idle) ∧
    (s.mode = .receivingState → b = 0x82#8 → t.mode = .idle) ∧
    (s.mode = .receivingState → b ≠ 0x82#8 →
      (∀ limit, s.par.unitLimit = some limit → s.par.stateMap.unit s.cnt < limit) →
      t.mode = .receivingState) ∧
    (s.mode = .receivingState → b ≠ 0x82#8 →
      (∃ limit, s.par.unitLimit = some limit ∧ limit ≤ s.par.stateMap.unit s.cnt) →
      t.mode = .idle)) ∧
  (∀ (now : Nat) (s : State), ∃ t, exec (.tick now) s = .next t ∧ t.mode = s.mode) ∧
  (∀ (ev : DecoderEvent) (s : State), ∃ t, exec (.apply ev) s = .next t ∧ t.mode = s.mode) ∧
  (∀ (i : Instr) (s t : State), encode i = none → (∀ b, i ≠ .feed b) → (∀ inp now, i ≠ .step inp now) →
    exec i s = .next t → t.mode = s.mode)

/-- Rules R86 and R87 from the host's side (the flat layouts are the spec's decision D16): a state frame
that encodes a vector and reaches every bridge within the limit loads exactly that vector, under every
map and both commit policies. Under FLAT8 a byte equal to the sentinel cannot be sent (R90). -/
def Obligations.StateFrameLoadsItsVector : Prop :=
  ∀ (v : List Bool) (n : Nat) (s : State),
    s.mode = .idle → v.length = s.par.nBridges →
    s.latch.length = s.par.nBridges → s.shadow.length = s.par.nBridges →
    (∀ i, i < s.par.nBridges → ∃ cnt, cnt < n ∧ (flagBit s.par.stateMap cnt i).isSome = true) →
    (∀ limit, s.par.unitLimit = some limit → ∀ cnt, cnt < n → s.par.stateMap.unit cnt < limit) →
    (s.par.stateMap = .flat8 → ∀ cnt, cnt < n → stateByte s.par.stateMap v cnt ≠ 0x82#8) →
    ∃ t, feedList (stateFrame ((List.range n).map (stateByte s.par.stateMap v))) s = .next t ∧
      t.latch = v ∧ t.mode = .idle ∧ t.ret = .event (.stateReady v) ∧ t.cnt = n ∧
      t.cfg = s.cfg ∧ t.acc = s.acc ∧ SameOutside s t

/-! ### WaveformScheduler -/

/-- R140: the phase is the range the position `now mod P` lies in. The sums are exact by the spec's
decision D3 (R145). The statement takes every natural number for `now`: that an operand of more than
TIME_WIDTH bits acts as the reading it truncates to is the model's deduction (log entry 4). -/
def Obligations.PhaseIsRangeMembership : Prop :=
  ∀ (now : Nat) (s : State),
    0 < s.cfg.up.toNat + s.cfg.inter.toNat + s.cfg.down.toNat + s.cfg.pause.toNat →
    ∃ (ph : Phase) (e : Nat),
      e = now % 2 ^ s.par.timeWidth %
        (s.cfg.up.toNat + s.cfg.inter.toNat + s.cfg.down.toNat + s.cfg.pause.toNat) ∧
      exec (.phaseOf now) s = .next { s with ret := .phase ph } ∧
      (ph = .pulseForward ↔ e < s.cfg.up.toNat) ∧
      (ph = .idleAfterForward ↔ s.cfg.up.toNat ≤ e ∧ e < s.cfg.up.toNat + s.cfg.inter.toNat) ∧
      (ph = .pulseReverse ↔ s.cfg.up.toNat + s.cfg.inter.toNat ≤ e ∧
        e < s.cfg.up.toNat + s.cfg.inter.toNat + s.cfg.down.toNat) ∧
      (ph = .idleAfterReverse ↔ s.cfg.up.toNat + s.cfg.inter.toNat + s.cfg.down.toNat ≤ e)

/-- R142 (the spec's decision D4): with all four durations zero the phase is IDLE_AFTER_REVERSE at every
reading. -/
def Obligations.ZeroPeriodIsIdleAfterReverse : Prop :=
  ∀ (now : Nat) (s : State), s.cfg = ⟨0, 0, 0, 0⟩ →
    exec (.phaseOf now) s = .next { s with ret := .phase .idleAfterReverse }

/-- R146: the four ranges are contiguous, disjoint and cover the period, and over any one period of
consecutive readings each phase is computed exactly as often as its duration says. -/
def Obligations.PhasesPartitionThePeriod : Prop :=
  ∀ (p : Params) (c : TimingConfig) (start : Nat), 0 < period c → start + period c ≤ 2 ^ p.timeWidth →
    (∀ e, e < period c →
      (phaseOf p c e = .pulseForward ↔ e < c.up.toNat) ∧
      (phaseOf p c e = .idleAfterForward ↔ c.up.toNat ≤ e ∧ e < c.up.toNat + c.inter.toNat) ∧
      (phaseOf p c e = .pulseReverse ↔ c.up.toNat + c.inter.toNat ≤ e ∧
        e < c.up.toNat + c.inter.toNat + c.down.toNat) ∧
      (phaseOf p c e = .idleAfterReverse ↔ c.up.toNat + c.inter.toNat + c.down.toNat ≤ e ∧
        e < c.up.toNat + c.inter.toNat + c.down.toNat + c.pause.toNat)) ∧
    (List.range (period c)).countP (fun k => phaseOf p c (start + k) = .pulseForward) = c.up.toNat ∧
    (List.range (period c)).countP (fun k => phaseOf p c (start + k) = .idleAfterForward) = c.inter.toNat ∧
    (List.range (period c)).countP (fun k => phaseOf p c (start + k) = .pulseReverse) = c.down.toNat ∧
    (List.range (period c)).countP (fun k => phaseOf p c (start + k) = .idleAfterReverse) = c.pause.toNat

/-- R147: a phase of duration zero is never selected while the period is above zero. -/
def Obligations.ZeroDurationPhaseIsSkipped : Prop :=
  ∀ (now : Nat) (s : State), 0 < period s.cfg →
    ∃ ph, exec (.phaseOf now) s = .next { s with ret := .phase ph } ∧
      (s.cfg.up = 0 → ph ≠ .pulseForward) ∧ (s.cfg.inter = 0 → ph ≠ .idleAfterForward) ∧
      (s.cfg.down = 0 → ph ≠ .pulseReverse) ∧ (s.cfg.pause = 0 → ph ≠ .idleAfterReverse)

/-- R143 (the policies and the phase-only comparison are the spec's decisions D8 and D9): a TICK that is
not suppressed emits the computed phase when it differs from `last`, or always under ALWAYS, records it,
and otherwise does nothing. -/
def Obligations.TickEmitsExactlyWhenDue : Prop :=
  ∀ (now : Nat) (s : State) (ph : Phase), phaseOf s.par s.cfg now = ph → ¬ ShortPulse s ph →
    (s.par.emitPolicy = .always ∨ s.last ≠ some ph →
      ∃ u, exec (.emit ph) s = .next u ∧ exec (.tick now) s = .next { u with last := some ph }) ∧
    (s.par.emitPolicy = .edge → s.last = some ph →
      exec (.tick now) s = .next { s with ret := .unit })

/-- R144 (the spec's decision D7): a pulse shorter than MIN_PULSE is not sent and `last` stays. -/
def Obligations.ShortPulseIsSuppressed : Prop :=
  ∀ (now : Nat) (s : State), ShortPulse s (phaseOf s.par s.cfg now) →
    exec (.tick now) s = .next { s with ret := .unit }

/-- The source's idempotence property (examples S6; R143, R173): under EDGE a second TICK that computes
the same phase sends nothing; under ALWAYS it sends the very same events again. -/
def Obligations.RepeatedTickIsIdempotent : Prop :=
  ∀ (now now' : Nat) (s t : State), phaseOf s.par s.cfg now' = phaseOf s.par s.cfg now →
    exec (.tick now) s = .next t →
    (s.par.emitPolicy = .edge → exec (.tick now') t = .next t) ∧
    (s.par.emitPolicy = .always → ∃ es, t.trace = s.trace ++ es ∧
      exec (.tick now') t = .next { t with trace := t.trace ++ es })

/-- R150: the TICK of the STEP that latches a new configuration computes with the new one. -/
def Obligations.NewConfigurationActsInItsOwnStep : Prop :=
  ∀ (b : Byte) (now : Nat) (s : State), s.mode = .receivingConfig → s.cnt = 7 →
    ∃ c : TimingConfig, c.up = s.acc.up ∧ c.inter = s.acc.inter ∧ c.down = s.acc.down ∧
      c.pause.extractLsb' 0 8 = s.acc.pause.extractLsb' 0 8 ∧ c.pause.extractLsb' 8 8 = b ∧
      exec (.step (some b) now) s =
        exec (.tick now) { s with cfg := c, acc := c, cnt := 8, mode := .idle }

/-- R255 (derived by the spec from R142, decision D4, and R143): the last byte of an all-zero configuration
ends a pulse in its own STEP with an all-OFF transfer. -/
def Obligations.AllZeroConfigurationEndsAPulse : Prop :=
  ∀ (now : Nat) (s : State),
    s.mode = .receivingConfig → s.cnt = 7 → s.acc = ⟨0, 0, 0, 0⟩ → s.last ≠ some .idleAfterReverse →
    ∃ t u, exec (.step (some 0x00#8) now) s = .next t ∧ exec (.emit .idleAfterReverse) s = .next u ∧
      t.trace = u.trace ∧ t.last = some .idleAfterReverse ∧ t.cfg = ⟨0, 0, 0, 0⟩ ∧ t.latch = s.latch

/-- R29: `last` is the phase of the most recent EMIT; no operation but TICK, and STEP through it, writes
it, and TICK writes it only with an EMIT of that phase; after reset it is NONE. -/
def Obligations.LastIsThePhaseLastEmitted : Prop :=
  (∀ (i : Instr) (s t : State), exec i s = .next t → (∀ now, i ≠ .tick now) →
    (∀ inp now, i ≠ .step inp now) → t.last = s.last) ∧
  (∀ (now : Nat) (s : State), ∃ t, exec (.tick now) s = .next t ∧
    ((t.last = s.last ∧ t.trace = s.trace) ∨
      ∃ ph u, t.last = some ph ∧ exec (.emit ph) s = .next u ∧ t.trace = u.trace)) ∧
  (∀ p : Params, (State.resetWith p).last = none)

/-! ### BitPacker -/

/-- R160: the target vector has N elements; bridges that are on are FORWARD in PULSE_FORWARD and REVERSE
in PULSE_REVERSE, all others OFF; nothing is stored. -/
def Obligations.TargetDrivesTheBridgesThatAreOn : Prop :=
  ∀ (ph : Phase) (s : State), ∃ t : List BridgeState,
    exec (.target ph) s = .next { s with ret := .target t } ∧
    t.length = s.par.nBridges ∧
    ∀ i, i < s.par.nBridges →
      (ph = .pulseForward → s.latch[i]? = some true → t[i]? = some .forward) ∧
      (ph = .pulseReverse → s.latch[i]? = some true → t[i]? = some .reverse) ∧
      (s.latch[i]? = some false → t[i]? = some .off) ∧
      (ph = .idleAfterForward ∨ ph = .idleAfterReverse → t[i]? = some .off)

/-- Rules R162, R91 and R92 with the positions and codes the spec chooses (decisions D10, D11): the DIRECT
word, bit by bit. -/
def Obligations.DirectWordBitByBit : Prop :=
  ∀ (t0 t1 t2 : BridgeState) (s : State),
    s.par.layout = DirectLayout.table → s.par.dirFwd = 0b10#2 → s.par.dirRev = 0b01#2 →
    ∃ w : Word, exec (.word t0 t1 t2) s = .next { s with ret := .word w } ∧
      w.getLsbD 15 = false ∧ w.getLsbD 14 = false ∧ w.getLsbD 13 = false ∧
      w.getLsbD 12 = decide (t2 ≠ .off) ∧ w.getLsbD 11 = decide (t2 ≠ .off) ∧
      w.getLsbD 10 = decide (t1 ≠ .off) ∧ w.getLsbD 9 = decide (t1 ≠ .off) ∧
      w.getLsbD 8 = decide (t0 ≠ .off) ∧ w.getLsbD 7 = decide (t0 ≠ .off) ∧
      w.getLsbD 6 = decide (t2 = .forward) ∧ w.getLsbD 5 = decide (t2 = .reverse) ∧
      w.getLsbD 4 = decide (t1 = .forward) ∧ w.getLsbD 3 = decide (t1 = .reverse) ∧
      w.getLsbD 2 = decide (t0 = .forward) ∧ w.getLsbD 1 = decide (t0 = .reverse) ∧
      w.getLsbD 0 = false

/-- Rules R168 and R95 (decisions D11, D12): the even bridge in bits 3 to 0, the odd one in bits 7 to 4. -/
def Obligations.DataByteHoldsTwoNibbles : Prop :=
  ∀ (te tOdd : BridgeState) (s : State),
    ∃ b : Byte, exec (.dataByte te tOdd) s = .next { s with ret := .byte b } ∧
      (te = .off → b.extractLsb' 0 4 = 0b0000#4) ∧ (te = .forward → b.extractLsb' 0 4 = s.par.nibFwd) ∧
      (te = .reverse → b.extractLsb' 0 4 = s.par.nibRev) ∧
      (tOdd = .off → b.extractLsb' 4 4 = 0b0000#4) ∧ (tOdd = .forward → b.extractLsb' 4 4 = s.par.nibFwd) ∧
      (tOdd = .reverse → b.extractLsb' 4 4 = s.par.nibRev)

/-- R97: in both encodings an OFF bridge contributes only zero bits: its enable pair and direction pair in
DIRECT, wherever the layout puts them (twelve distinct positions), and its nibble in REGADDR. -/
def Obligations.OffBridgesContributeZeroBits : Prop :=
  (∀ (t0 t1 t2 : BridgeState) (s : State),
    (s.par.layout.ofBridge 0 ++ s.par.layout.ofBridge 1 ++ s.par.layout.ofBridge 2).Nodup →
    ∃ w : Word, exec (.word t0 t1 t2) s = .next { s with ret := .word w } ∧
      (t0 = .off → ∀ i ∈ s.par.layout.ofBridge 0, w.getLsbD i.val = false) ∧
      (t1 = .off → ∀ i ∈ s.par.layout.ofBridge 1, w.getLsbD i.val = false) ∧
      (t2 = .off → ∀ i ∈ s.par.layout.ofBridge 2, w.getLsbD i.val = false)) ∧
  (∀ (te tOdd : BridgeState) (s : State),
    ∃ b : Byte, exec (.dataByte te tOdd) s = .next { s with ret := .byte b } ∧
      (te = .off → b.extractLsb' 0 4 = 0b0000#4) ∧ (tOdd = .off → b.extractLsb' 4 4 = 0b0000#4))

/-- R163, R93: one bracket on the board's line; chips from the highest index down, each chip's word of
bridges 3g, 3g+1, 3g+2 high byte first; nothing else changes. -/
def Obligations.DirectBoardSendsOneFrame : Prop :=
  ∀ (board : Nat) (t : List BridgeState) (s : State),
    board < s.par.nBoards → 3 * (board * s.par.chipsPerBoard + s.par.chipsPerBoard) ≤ t.length →
    ∃ bytes : List Byte,
      bytes.length = 2 * s.par.chipsPerBoard ∧
      (∀ c, c < s.par.chipsPerBoard → ∃ t0 t1 t2 w,
        t[3 * (board * s.par.chipsPerBoard + c)]? = some t0 ∧
        t[3 * (board * s.par.chipsPerBoard + c) + 1]? = some t1 ∧
        t[3 * (board * s.par.chipsPerBoard + c) + 2]? = some t2 ∧
        exec (.word t0 t1 t2) s = .next { s with ret := .word w } ∧
        bytes[2 * (s.par.chipsPerBoard - 1 - c)]? = some (w.extractLsb' 8 8) ∧
        bytes[2 * (s.par.chipsPerBoard - 1 - c) + 1]? = some (w.extractLsb' 0 8)) ∧
      exec (.emitDirectBoard board t) s = .next
        { s with
          sel := s.sel.set board false
          trace := s.trace ++ .select board :: (bytes.map .shift ++ [.deselect board])
          ret := .unit }

/-- Rules R170, R171 and R96 (the orders are the spec's decision D12): three brackets, registers ascending;
in each, all address bytes first, the flag on the last one alone, then all data bytes, both runs with the
highest chip first. -/
def Obligations.RegaddrBoardSendsThreeFrames : Prop :=
  ∀ (board : Nat) (t : List BridgeState) (s : State),
    board < s.par.nBoards → 6 * (board * s.par.chipsPerBoard + s.par.chipsPerBoard) ≤ t.length →
    ∃ frame : Fin 3 → List Byte,
      (∀ r : Fin 3, (frame r).length = 2 * s.par.chipsPerBoard ∧
        ∀ c, c < s.par.chipsPerBoard → ∃ te tOdd b,
          (frame r)[s.par.chipsPerBoard - 1 - c]? =
            some (if c = 0 then s.par.addrLast[r] else s.par.addrMid[r]) ∧
          t[6 * (board * s.par.chipsPerBoard + c) + 2 * r.val]? = some te ∧
          t[6 * (board * s.par.chipsPerBoard + c) + 2 * r.val + 1]? = some tOdd ∧
          exec (.dataByte te tOdd) s = .next { s with ret := .byte b } ∧
          (frame r)[s.par.chipsPerBoard + (s.par.chipsPerBoard - 1 - c)]? = some b) ∧
      exec (.emitRegaddrBoard board t) s = .next
        { s with
          sel := s.sel.set board false
          trace := s.trace ++
            (.select board :: ((frame 0).map .shift ++ [.deselect board])) ++
            (.select board :: ((frame 1).map .shift ++ [.deselect board])) ++
            (.select board :: ((frame 2).map .shift ++ [.deselect board]))
          ret := .unit }

/-- The model's own stop (log entry 11), on operands R51 and R160 say do not exist: a board at or above
N_BOARDS, or a target vector without an element the board's chips need. -/
def Obligations.BoardEmittersStopOnAbsentOperands : Prop :=
  ∀ (board : Nat) (t : List BridgeState) (s : State),
    (s.par.nBoards ≤ board →
      exec (.emitDirectBoard board t) s = .fault .noSuchBoard ∧
      exec (.emitRegaddrBoard board t) s = .fault .noSuchBoard) ∧
    (board < s.par.nBoards →
      (t.length < 3 * (board * s.par.chipsPerBoard + s.par.chipsPerBoard) →
        exec (.emitDirectBoard board t) s = .fault .noSuchBridge) ∧
      (t.length < 6 * (board * s.par.chipsPerBoard + s.par.chipsPerBoard) →
        exec (.emitRegaddrBoard board t) s = .fault .noSuchBridge))

/-- R161 (the board order is the spec's decision D14): EMIT computes the target vector once and runs its
encoding's per-board emitter for boards 0, 1, … in turn. -/
def Obligations.EmitServesBoardsInAscendingOrder : Prop :=
  ∀ (ph : Phase) (s : State), 1 ≤ s.par.nBoards →
    ∃ (tv : List BridgeState) (t : State),
      exec (.target ph) s = .next { s with ret := .target tv } ∧
      exec (.emit ph) s = .next t ∧
      (s.par.encoding = .direct → (List.range s.par.nBoards).foldl
        (fun o board => andThen o (exec (.emitDirectBoard board tv))) (.next s) = .next t) ∧
      (s.par.encoding = .regaddr → (List.range s.par.nBoards).foldl
        (fun o board => andThen o (exec (.emitRegaddrBoard board tv))) (.next s) = .next t)

/-- R172 (derived by the spec from R163 and R170): the number of brackets and of bytes of one EMIT does
not depend on `D` or on the phase. -/
def Obligations.EmitHasAFixedSize : Prop :=
  ∀ (ph : Phase) (s : State), ∃ t es, exec (.emit ph) s = .next t ∧ t.trace = s.trace ++ es ∧
    (s.par.encoding = .direct →
      es.countP BusEvent.isSelect = s.par.nBoards ∧
      es.countP BusEvent.isShift = 2 * (s.par.nBoards * s.par.chipsPerBoard)) ∧
    (s.par.encoding = .regaddr →
      es.countP BusEvent.isSelect = 3 * s.par.nBoards ∧
      es.countP BusEvent.isShift = 6 * (s.par.nBoards * s.par.chipsPerBoard))

/-- R173: the bytes of an EMIT are a function of the phase, `D` and the parameters, and the two idle
phases give the same bytes. -/
def Obligations.EmitBytesDependOnPhaseLatchAndParametersOnly : Prop :=
  ∀ (p : Params) (latch : List Bool), ∃ events : Phase → List BusEvent,
    events .idleAfterForward = events .idleAfterReverse ∧
    ∀ (ph : Phase) (s : State), s.par = p → s.latch = latch →
      ∃ t, exec (.emit ph) s = .next t ∧ t.trace = s.trace ++ events ph

/-- R61, R165 (its bracketing is the spec's decision D12, D14): EMIT changes no register but `sel`, leaves
every board's select line deasserted, and its events are well bracketed. -/
def Obligations.EmitLeavesOnlyTraceAndDeassertedLines : Prop :=
  ∀ (ph : Phase) (s : State), ∃ (sel : List Bool) (es : List BusEvent),
    exec (.emit ph) s = .next { s with sel := sel, trace := s.trace ++ es, ret := .unit } ∧
    sel.length = s.sel.length ∧
    (∀ k, k < s.par.nBoards → sel.getD k false = false) ∧
    (∀ k, s.par.nBoards ≤ k → sel[k]? = s.sel[k]?) ∧
    Bracketed s.par.nBoards es

/-- Rules R52, R91, R95, R163 and R170 together (decisions D10 to D12, D29): the frames of a pulse
determine the latch. No bridge's bit is dropped, merged with another's or sent twice in place of it. -/
def Obligations.PulseFramesDetermineTheLatch : Prop :=
  ∀ (ph : Phase) (s s' t t' : State),
    ph = .pulseForward ∨ ph = .pulseReverse →
    s.par = s'.par → s.par.layout = DirectLayout.table →
    s.par.nibFwd ≠ 0b0000#4 → s.par.nibRev ≠ 0b0000#4 →
    s.latch.length = s.par.nBridges → s'.latch.length = s.par.nBridges → s.trace = s'.trace →
    exec (.emit ph) s = .next t → exec (.emit ph) s' = .next t' → t.trace = t'.trace →
    s.latch = s'.latch

/-- R21: no operation of the scheduler or the bit-packer writes `D`; nor do they write any other register
of the FrameDecoder (R113, R29, R61). -/
def Obligations.SchedulerAndPackerKeepDecoderRegisters : Prop :=
  ∀ (s t : State),
    (∀ now, exec (.phaseOf now) s = .next t → SameDecoderState s t ∧ SameOutside s t) ∧
    (∀ now, exec (.tick now) s = .next t → SameDecoderState s t) ∧
    (∀ ph, exec (.target ph) s = .next t → SameDecoderState s t ∧ SameOutside s t) ∧
    (∀ ph, exec (.emit ph) s = .next t → SameDecoderState s t ∧ t.last = s.last) ∧
    (∀ t0 t1 t2, exec (.word t0 t1 t2) s = .next t → SameDecoderState s t ∧ SameOutside s t) ∧
    (∀ k v, exec (.emitDirectBoard k v) s = .next t → SameDecoderState s t ∧ t.last = s.last) ∧
    (∀ te tOdd, exec (.dataByte te tOdd) s = .next t → SameDecoderState s t ∧ SameOutside s t) ∧
    (∀ k v, exec (.emitRegaddrBoard k v) s = .next t → SameDecoderState s t ∧ t.last = s.last)

/-! ### Controller -/

/-- R191 (the spec's decision D28): APPLY stores the event's value and changes nothing else. R20 gives
vectors N elements: that a vector of another length is stored as it is, is the model's choice (log
entry 19). -/
def Obligations.ApplyStoresTheEvent : Prop :=
  ∀ s : State,
    exec (.apply .none) s = .next { s with ret := .unit } ∧
    (∀ c, exec (.apply (.configReady c)) s = .next { s with cfg := c, ret := .unit }) ∧
    (∀ v, exec (.apply (.stateReady v)) s = .next { s with latch := v, ret := .unit })

/-- R115, R123 (the spec's decision D28): APPLY of the event a FEED has just returned changes nothing. -/
def Obligations.ApplyAfterFeedChangesNothing : Prop :=
  ∀ (b : Byte) (s : State), ∃ t e, exec (.feed b) s = .next t ∧ t.ret = .event e ∧
    exec (.apply e) t = .next { t with ret := .unit }

/-- R190, R64: STEP feeds the byte if there is one, applies its event, and then runs exactly one TICK. -/
def Obligations.StepIsFeedApplyTick : Prop :=
  ∀ (now : Nat) (s : State),
    exec (.step none now) s = exec (.tick now) s ∧
    (∀ b : Byte, ∃ t e, exec (.feed b) s = .next t ∧ t.ret = .event e ∧
      exec (.step (some b) now) s = andThen (exec (.apply e) t) (exec (.tick now)))

/-- R67 and R190 (R67 is derived by the spec): one STEP answers a next state, appends at most one Diag and
then at most one EMIT's events, in that order, and records the emitted phase; without a byte, no Diag. -/
def Obligations.StepAppendsDiagThenOneEmission : Prop :=
  ∀ (inp : Option Byte) (now : Nat) (s : State), ∃ t d es,
    exec (.step inp now) s = .next t ∧
    t.trace = s.trace ++ d ++ es ∧
    (d = [] ∨ d = [.diag]) ∧ (inp = none → d = []) ∧
    ((es = [] ∧ t.last = s.last) ∨
      ∃ ph u, t.last = some ph ∧ exec (.emit ph) t = .next u ∧ u.trace = t.trace ++ es)

/-- R190, R193: one step of the machine takes the environment's next input and runs the operation its byte
decodes to, then APPLY of the returned event, then TICK at the reading; with no byte, TICK alone. When the
script is empty the input is the free environment's (the model's choice, log entry 3). -/
def Obligations.MachineStepRunsTheDecodedByte : Prop :=
  (∀ (s : State) (b : Byte) (now : Nat) (rest : List EnvInput), s.env = ⟨some b, now⟩ :: rest →
    step s = andThen (exec (decode s.mode b) { s with env := rest }) fun t =>
      andThen (exec (.apply (eventOf t.ret)) t) (exec (.tick now))) ∧
  (∀ (s : State) (now : Nat) (rest : List EnvInput), s.env = ⟨none, now⟩ :: rest →
    step s = exec (.tick now) { s with env := rest }) ∧
  (∀ s : State, s.env = [] → step s =
    exec (.step (Config.freeByte s.draws) (Config.freeNow s.draws)) { s with draws := s.draws + 1 })

/-- The host's interface (the model's choices of log entries 12, 13 and 21): the next step after placing a
table word runs the operation the word decodes to, then APPLY of its event, then TICK at the next free
draw, which is counted. -/
def Obligations.PlacedTableWordRunsNext : Prop :=
  ∀ (s : State) (nbits w : Nat) (i : Instr), decodeTableWord nbits w = some i →
    step (s.withFetchWord nbits w) =
      andThen (exec i { s with mode := tableMode w, draws := s.draws + 1 }) fun t =>
        andThen (exec (.apply (eventOf t.ret)) t) (exec (.tick (Config.freeNow s.draws)))

/-- R200, R194: no error exists and nothing stops the loop: in every state, reachable or not, whatever the
environment supplies, a step answers a next state. -/
def Obligations.StepNeverStops : Prop :=
  (∀ s : State, ∃ t, step s = .next t) ∧
  (∀ (b : Byte) (s : State), ∃ t, exec (.feed b) s = .next t) ∧
  (∀ (now : Nat) (s : State), ∃ t, exec (.tick now) s = .next t) ∧
  (∀ (ph : Phase) (s : State), ∃ t, exec (.emit ph) s = .next t)

/-- No operation changes a parameter (R7) or the enable line (R32); nor does one take back a bus event
already sent (R67, derived by the spec; the trace that keeps them is the model's field, log entry 5) or
touch the environment's script and draw counter (the model's fields, log entry 3). -/
def Obligations.ParametersEnableAndPastEventsStay : Prop :=
  (∀ (i : Instr) (s t : State), exec i s = .next t →
    t.par = s.par ∧ t.en = s.en ∧ t.env = s.env ∧ t.draws = s.draws ∧ s.trace <+: t.trace) ∧
  (∀ s t : State, step s = .next t → t.par = s.par ∧ t.en = s.en ∧ s.trace <+: t.trace)

/-- R32: only EMIT (run by itself, per board, or inside TICK and STEP) changes a select line, every EMIT
leaves every line of a board deasserted, and the enable line is 1 from reset on. -/
def Obligations.OutputLinesChangeOnlyInEmit : Prop :=
  (∀ (i : Instr) (s t : State), exec i s = .next t →
    (∀ ph, i ≠ .emit ph) → (∀ k v, i ≠ .emitDirectBoard k v) → (∀ k v, i ≠ .emitRegaddrBoard k v) →
    (∀ now, i ≠ .tick now) → (∀ inp now, i ≠ .step inp now) → t.sel = s.sel) ∧
  (∀ (now : Nat) (s : State), ∃ t, exec (.tick now) s = .next t ∧
    (t.sel = s.sel ∨ ∃ ph u, exec (.emit ph) s = .next u ∧ t.sel = u.sel)) ∧
  (∀ (ph : Phase) (s : State), ∃ t, exec (.emit ph) s = .next t ∧
    ∀ k, k < s.par.nBoards → t.sel.getD k false = false) ∧
  (∀ p : Params, (State.resetWith p).en = true) ∧
  (∀ (i : Instr) (s t : State), exec i s = .next t → t.en = s.en)

/-- R25: `cfg` changes only as a whole, at the end of a configuration frame. -/
def Obligations.ConfigurationChangesOnlyAtFrameEnd : Prop :=
  ∀ (inp : Option Byte) (now : Nat) (s : State), ∃ t, exec (.step inp now) s = .next t ∧
    (t.cfg = s.cfg ∨
      (s.mode = .receivingConfig ∧ s.cnt = 7 ∧ inp ≠ none ∧ t.mode = .idle ∧ t.cfg = t.acc))

/-- R126, R60(c) (the policies are the spec's decision D21): under AT_FRAME_END a STEP changes `D` only by
the sentinel of a state frame, all N bits at once, from `S`. -/
def Obligations.AtFrameEndLatchChangesOnlyAtStateEnd : Prop :=
  ∀ (inp : Option Byte) (now : Nat) (s : State), s.par.stateCommit = .atFrameEnd →
    ∃ t, exec (.step inp now) s = .next t ∧
      (s.mode = .receivingState ∧ inp = some 0x82#8 → t.latch = s.shadow) ∧
      (¬ (s.mode = .receivingState ∧ inp = some 0x82#8) → t.latch = s.latch)

/-- R30 (the spec's decision D21; log entry 8): under INCREMENTAL the model's `S` is never written and
never read, so it is as if there were none. -/
def Obligations.IncrementalHasNoShadow : Prop :=
  ∀ (inp : Option Byte) (now : Nat) (v : List Bool) (s : State), s.par.stateCommit = .incremental →
    ∃ t, exec (.step inp now) s = .next t ∧ t.shadow = s.shadow ∧
      exec (.step inp now) { s with shadow := v } = .next { t with shadow := v }

/-- R36: the FrameDecoder's own registers are hidden. A STEP without a byte answers the same bus events
and the same `last` whatever `acc`, `cnt`, `mode` and `S` hold. -/
def Obligations.TickDoesNotSeeHiddenDecoderState : Prop :=
  ∀ (now : Nat) (s t : State) (acc : TimingConfig) (cnt : Nat) (mode : Mode) (shadow : List Bool),
    exec (.step none now) s = .next t →
    exec (.step none now) { s with acc := acc, cnt := cnt, mode := mode, shadow := shadow } =
      .next { t with acc := acc, cnt := cnt, mode := mode, shadow := shadow }

/-! ### Reset and whole-machine rules -/

/-- R38, R232 (the values are the spec's decisions D5, D6 and D27): every register after reset, for every
parameter record. -/
def Obligations.ResetLeavesTheStatedValues : Prop :=
  ∀ p : Params,
    (State.resetWith p).latch = List.replicate p.nBridges false ∧
    (State.resetWith p).cfg = ⟨0, 0, 0, 0⟩ ∧
    (State.resetWith p).mode = .idle ∧
    (State.resetWith p).cnt = 0 ∧
    (State.resetWith p).acc = ⟨0, 0, 0, 0⟩ ∧
    (State.resetWith p).last = none ∧
    (State.resetWith p).shadow = List.replicate p.nBridges false ∧
    (State.resetWith p).sel = List.replicate p.nBoards false ∧
    (State.resetWith p).en = true ∧
    (State.resetWith p).trace = []

/-- R233 (derived by the spec from R38, R142 and R143): the first STEP after reset, whatever it is fed,
ends with one EMIT of all-OFF frames and nothing else on the bus. -/
def Obligations.FirstStepSendsAllOff : Prop :=
  ∀ (p : Params) (inp : Option Byte) (now : Nat), ∃ t u,
    exec (.step inp now) (State.resetWith p) = .next t ∧
    exec (.emit .idleAfterReverse) (State.resetWith p) = .next u ∧
    exec (.target .idleAfterReverse) (State.resetWith p) =
      .next { State.resetWith p with ret := .target (List.replicate p.nBridges .off) } ∧
    t.trace = u.trace ∧ t.last = some .idleAfterReverse

/-- R235 (derived by the spec): until a nonzero pulse duration and a set bit have both arrived, every TICK
sends what it would send with every bridge off. -/
def Obligations.NothingIsDrivenUntilLoaded : Prop :=
  ∀ (now : Nat) (s : State),
    (∀ i, s.latch.getD i false = false) ∨ (s.cfg.up = 0 ∧ s.cfg.down = 0) →
    ∃ t u, exec (.tick now) s = .next t ∧
      exec (.tick now) { s with latch := List.replicate s.par.nBridges false } = .next u ∧
      t.trace = u.trace ∧ t.last = u.last

/-- The invariant of Safety.lean holds after reset, for every parameter record (R38, R232). -/
def Obligations.InvariantHoldsAtReset : Prop :=
  ∀ p : Params, (State.resetWith p).Inv

/-- The invariant of Safety.lean is kept by every step of the machine: vector lengths (R20, R121), select
lines deasserted between STEPs and a well-bracketed trace (R165, R67), the enable line (R214), the
configuration counter (R31). -/
def Obligations.EveryStepKeepsTheInvariant : Prop :=
  ∀ s t : State, s.Inv → step s = .next t → t.Inv
end

