-- ==== Sys2Proof/Laws/Operands.lean ====
section
/-! SUPPORT. What the operand forms do: the bytes of a 16-bit value (00_scope.md R10), one byte of a
configuration record (30_encoding.md R84) and the flags of a state data byte (40_frame_decoder.md
R119, R121). -/

namespace Sys2Proof

theorem joinBytes_getLsbD (h l : Byte) (i : Nat) :
    (joinBytes h l).getLsbD i = if i < 8 then l.getLsbD i else h.getLsbD (i - 8) :=
  BitVec.getLsbD_append ..

theorem joinNibbles_getLsbD (h l : BitVec 4) (i : Nat) :
    (joinNibbles h l).getLsbD i = if i < 4 then l.getLsbD i else h.getLsbD (i - 4) :=
  BitVec.getLsbD_append ..

@[simp] theorem loByte_joinBytes (h l : Byte) : loByte (joinBytes h l) = l := by
  apply BitVec.eq_of_getLsbD_eq
  intro i hi
  simp [loByte, joinBytes_getLsbD, hi]

@[simp] theorem hiByte_joinBytes (h l : Byte) : hiByte (joinBytes h l) = h := by
  apply BitVec.eq_of_getLsbD_eq
  intro i hi
  simp [hiByte, joinBytes_getLsbD, hi]

/-- A 16-bit value is its two bytes. -/
@[simp] theorem joinBytes_hiByte_loByte (v : Word) : joinBytes (hiByte v) (loByte v) = v := by
  apply BitVec.eq_of_getLsbD_eq
  intro i hi
  rw [joinBytes_getLsbD]
  by_cases h : i < 8
  · simp [h, loByte]
  · have h8 : i - 8 < 8 := by omega
    have hs : 8 + (i - 8) = i := by omega
    simp [h, hiByte, h8, hs]

@[simp] theorem loByte_setLoByte (v : Word) (b : Byte) : loByte (setLoByte v b) = b :=
  loByte_joinBytes _ _

@[simp] theorem hiByte_setLoByte (v : Word) (b : Byte) : hiByte (setLoByte v b) = hiByte v :=
  hiByte_joinBytes _ _

@[simp] theorem loByte_setHiByte (v : Word) (b : Byte) : loByte (setHiByte v b) = loByte v :=
  loByte_joinBytes _ _

@[simp] theorem hiByte_setHiByte (v : Word) (b : Byte) : hiByte (setHiByte v b) = b :=
  hiByte_joinBytes _ _

theorem word_ext {v w : Word} (hl : loByte v = loByte w) (hh : hiByte v = hiByte w) : v = w := by
  rw [← joinBytes_hiByte_loByte v, ← joinBytes_hiByte_loByte w, hl, hh]

@[simp] theorem writeFlags_length (n base w : Nat) (b : Byte) (v : List Bool) :
    (writeFlags n base w b v).length = v.length := by
  unfold writeFlags
  induction w with
  | zero => rfl
  | succ w ih =>
    rw [List.range_succ, List.foldl_append]
    simp only [List.foldl_cons, List.foldl_nil]
    split <;> simp [ih]

/-- One flag after a state data byte: written where the byte covers the index and the index is below
`n`, unchanged elsewhere. -/
theorem writeFlags_getElem? (n base w : Nat) (b : Byte) (v : List Bool) (i : Nat) :
    (writeFlags n base w b v)[i]? =
      if base ≤ i ∧ i < base + w ∧ i < n then v[i]?.map fun _ => b.getLsbD (i - base) else v[i]? := by
  induction w with
  | zero =>
    rw [if_neg (by omega)]
    rfl
  | succ w ih =>
    have step : writeFlags n base (w + 1) b v =
        if base + w < n then (writeFlags n base w b v).set (base + w) (b.getLsbD w)
        else writeFlags n base w b v := by
      simp [writeFlags, List.range_succ]
    rw [step]
    by_cases hn : base + w < n
    · rw [if_pos hn, List.getElem?_set]
      by_cases hi : base + w = i
      · subst hi
        have hw : base + w - base = w := by omega
        have hc : base ≤ base + w ∧ base + w < base + (w + 1) ∧ base + w < n := by omega
        rw [hw, if_pos rfl, if_pos hc, writeFlags_length]
        by_cases hv : base + w < v.length
        · simp [hv]
        · simp [hv]
      · rw [if_neg hi, ih]
        by_cases hc : base ≤ i ∧ i < base + w ∧ i < n
        · rw [if_pos hc, if_pos (by omega)]
        · rw [if_neg hc, if_neg (by omega)]
    · rw [if_neg hn, ih]
      by_cases hc : base ≤ i ∧ i < base + w ∧ i < n
      · rw [if_pos hc, if_pos (by omega)]
      · rw [if_neg hc, if_neg (by omega)]

/-- A byte none of whose bits reaches below `n` writes nothing (R121). -/
theorem writeFlags_past {n base w : Nat} (h : n ≤ base) (b : Byte) (v : List Bool) :
    writeFlags n base w b v = v := by
  apply List.ext_getElem?
  intro i
  rw [writeFlags_getElem?, if_neg (by omega)]

/-- No limit, or a unit index below it (R119). -/
theorem overLimit_false {p : Params} {cnt : Nat} :
    p.overLimit cnt = false ↔ ∀ limit, p.unitLimit = some limit → p.stateMap.unit cnt < limit := by
  unfold Params.overLimit
  cases p.unitLimit <;> simp

/-- A limit, and a unit index at or above it (R120). -/
theorem overLimit_true {p : Params} {cnt : Nat} :
    p.overLimit cnt = true ↔ ∃ limit, p.unitLimit = some limit ∧ limit ≤ p.stateMap.unit cnt := by
  unfold Params.overLimit
  cases p.unitLimit <;> simp

/-- The two nibbles of a joined byte (R10). -/
theorem extract_joinNibbles (h l : BitVec 4) :
    (joinNibbles h l).extractLsb' 0 4 = l ∧ (joinNibbles h l).extractLsb' 4 4 = h := by
  constructor
  · apply BitVec.eq_of_getLsbD_eq
    intro i hi
    simp [joinNibbles_getLsbD, hi]
  · apply BitVec.eq_of_getLsbD_eq
    intro i hi
    simp [joinNibbles_getLsbD, hi]

end Sys2Proof
end

