-- ==== Sys2Proof/Laws/State.lean ====
section
/-! SUPPORT. One lemma per field for each shared operation over State, all true by rfl, so that no proof
unfolds a record update. -/

namespace Sys2Proof.Machine

section Returning
variable (r : Ret) (s : State)
@[simp] theorem returning_par : (returning r s).par = s.par := rfl
@[simp] theorem returning_latch : (returning r s).latch = s.latch := rfl
@[simp] theorem returning_cfg : (returning r s).cfg = s.cfg := rfl
@[simp] theorem returning_mode : (returning r s).mode = s.mode := rfl
@[simp] theorem returning_cnt : (returning r s).cnt = s.cnt := rfl
@[simp] theorem returning_acc : (returning r s).acc = s.acc := rfl
@[simp] theorem returning_last : (returning r s).last = s.last := rfl
@[simp] theorem returning_shadow : (returning r s).shadow = s.shadow := rfl
@[simp] theorem returning_sel : (returning r s).sel = s.sel := rfl
@[simp] theorem returning_en : (returning r s).en = s.en := rfl
@[simp] theorem returning_trace : (returning r s).trace = s.trace := rfl
@[simp] theorem returning_ret : (returning r s).ret = r := rfl
@[simp] theorem returning_env : (returning r s).env = s.env := rfl
@[simp] theorem returning_draws : (returning r s).draws = s.draws := rfl
end Returning

section Output
variable (e : BusEvent) (s : State)
@[simp] theorem output_par : (output e s).par = s.par := rfl
@[simp] theorem output_latch : (output e s).latch = s.latch := rfl
@[simp] theorem output_cfg : (output e s).cfg = s.cfg := rfl
@[simp] theorem output_mode : (output e s).mode = s.mode := rfl
@[simp] theorem output_cnt : (output e s).cnt = s.cnt := rfl
@[simp] theorem output_acc : (output e s).acc = s.acc := rfl
@[simp] theorem output_last : (output e s).last = s.last := rfl
@[simp] theorem output_shadow : (output e s).shadow = s.shadow := rfl
@[simp] theorem output_sel : (output e s).sel = s.sel := rfl
@[simp] theorem output_en : (output e s).en = s.en := rfl
@[simp] theorem output_trace : (output e s).trace = s.trace ++ [e] := rfl
@[simp] theorem output_ret : (output e s).ret = s.ret := rfl
@[simp] theorem output_env : (output e s).env = s.env := rfl
@[simp] theorem output_draws : (output e s).draws = s.draws := rfl
end Output

section ResetWith
variable (p : Params)
@[simp] theorem resetWith_par : (State.resetWith p).par = p := rfl
@[simp] theorem resetWith_latch : (State.resetWith p).latch = List.replicate p.nBridges false := rfl
@[simp] theorem resetWith_cfg : (State.resetWith p).cfg = TimingConfig.zero := rfl
@[simp] theorem resetWith_mode : (State.resetWith p).mode = .idle := rfl
@[simp] theorem resetWith_cnt : (State.resetWith p).cnt = 0 := rfl
@[simp] theorem resetWith_last : (State.resetWith p).last = none := rfl
@[simp] theorem resetWith_shadow : (State.resetWith p).shadow = List.replicate p.nBridges false := rfl
@[simp] theorem resetWith_sel : (State.resetWith p).sel = List.replicate p.nBoards false := rfl
@[simp] theorem resetWith_en : (State.resetWith p).en = true := rfl
@[simp] theorem resetWith_trace : (State.resetWith p).trace = [] := rfl
end ResetWith

@[simp] theorem andThen_next (s : State) (f : State → Result) : andThen (.next s) f = f s := rfl

theorem takeInput_cons {s : State} {e : EnvInput} {rest : List EnvInput} (h : s.env = e :: rest) :
    takeInput s = { s with env := rest } := by
  simp [takeInput, h]

theorem nextInput_cons {s : State} {e : EnvInput} {rest : List EnvInput} (h : s.env = e :: rest) :
    nextInput s = e := by
  simp [nextInput, h]

/-- Taking an input changes only the environment's own fields. -/
theorem takeInput_eq (s : State) : ∃ env draws, takeInput s = { s with env := env, draws := draws } := by
  unfold takeInput
  split
  · exact ⟨_, _, rfl⟩
  · exact ⟨_, _, rfl⟩

end Sys2Proof.Machine
end

