-- ==== Sys2Proof/Laws/Ops.lean ====
section
/-! SUPPORT. What a bracket does, all of it (42_bitpacker.md R165), and how it keeps a trace bracketed. -/

namespace Sys2Proof.Machine

/-- The events of one bracket. -/
def frameEvents (k : Nat) (bytes : List Byte) : List BusEvent :=
  .select k :: (bytes.map .shift ++ [.deselect k])

theorem shiftAll_eq (bytes : List Byte) (s : State) :
    bytes.foldl (fun s b => busShift b s) s = { s with trace := s.trace ++ bytes.map .shift } := by
  induction bytes generalizing s with
  | nil => simp
  | cons b bs ih =>
    rw [List.foldl_cons, ih]
    simp [busShift, output]

/-- A bracket appends its events and leaves its select line deasserted; nothing else changes. -/
theorem bracket_eq (k : Nat) (bytes : List Byte) (s : State) :
    bracket k bytes s =
      { s with sel := s.sel.set k false, trace := s.trace ++ frameEvents k bytes } := by
  simp [bracket, shiftAll_eq, busSelect, busDeselect, output, frameEvents]

theorem track_shifts (n k : Nat) (bytes : List Byte) :
    (bytes.map BusEvent.shift).foldl (trackSelect n) (some (some k)) = some (some k) := by
  induction bytes with
  | nil => rfl
  | cons b bs ih => simpa [trackSelect] using ih

theorem track_frame {n k : Nat} (hk : k < n) (bytes : List Byte) :
    (frameEvents k bytes).foldl (trackSelect n) (some none) = some none := by
  simp [frameEvents, trackSelect, hk, track_shifts]

theorem bracketed_append {n : Nat} {a b : List BusEvent} (ha : Bracketed n a) (hb : Bracketed n b) :
    Bracketed n (a ++ b) := by
  unfold Bracketed at *
  rw [List.foldl_append, ha, hb]

theorem bracketed_flatMap {α : Type} {n : Nat} {l : List α} {f : α → List BusEvent}
    (h : ∀ x ∈ l, Bracketed n (f x)) : Bracketed n (l.flatMap f) := by
  induction l with
  | nil => rfl
  | cons x xs ih =>
    rw [List.flatMap_cons]
    exact bracketed_append (h x (by simp)) (ih fun y hy => h y (by simp [hy]))

end Sys2Proof.Machine
end

