-- ==== Sys2Proof/Laws/BitPacker.lean ====
section
/-! SUPPORT. What EMIT does, all of it (42_bitpacker.md): it appends the frames of every board and leaves
the select lines deasserted; and the sizes and contents of the frames. -/

namespace Sys2Proof.Machine

@[simp] theorem exec_target (ph : Phase) (s : State) :
    exec (.target ph) s = .next (returning (.target (targetVector s.par ph s.latch)) s) := rfl
@[simp] theorem exec_emit (ph : Phase) (s : State) : exec (.emit ph) s = .next (emit ph s) := rfl
@[simp] theorem exec_word (t0 t1 t2 : BridgeState) (s : State) :
    exec (.word t0 t1 t2) s = .next (returning (.word (directWord s.par t0 t1 t2)) s) := rfl
@[simp] theorem exec_dataByte (te tOdd : BridgeState) (s : State) :
    exec (.dataByte te tOdd) s = .next (returning (.byte (regData s.par te tOdd)) s) := rfl
theorem exec_emitDirectBoard (board : Nat) (t : List BridgeState) (s : State) :
    exec (.emitDirectBoard board t) s = onBoard 3 board t s (emitDirectBoard board t) := rfl
theorem exec_emitRegaddrBoard (board : Nat) (t : List BridgeState) (s : State) :
    exec (.emitRegaddrBoard board t) s = onBoard 6 board t s (emitRegaddrBoard board t) := rfl

/-- The events of the board's frames in the machine's encoding. -/
def boardEvents (p : Params) (t : List BridgeState) (board : Nat) : List BusEvent :=
  match p.encoding with
  | .direct => frameEvents board (directBytes p t board)
  | .regaddr => registers.flatMap fun r => frameEvents board (regaddrBytes p t board r)

/-- The events of one EMIT of the target vector `t`. -/
def emitEvents (p : Params) (t : List BridgeState) : List BusEvent :=
  (List.range p.nBoards).flatMap (boardEvents p t)

theorem emitDirectBoard_eq (board : Nat) (t : List BridgeState) (s : State) :
    emitDirectBoard board t s =
      { s with sel := s.sel.set board false
               trace := s.trace ++ frameEvents board (directBytes s.par t board)
               ret := .unit } := by
  simp [emitDirectBoard, bracket_eq, returning]

theorem emitRegaddrBoard_eq (board : Nat) (t : List BridgeState) (s : State) :
    emitRegaddrBoard board t s =
      { s with sel := s.sel.set board false
               trace := s.trace ++ registers.flatMap fun r => frameEvents board (regaddrBytes s.par t board r)
               ret := .unit } := by
  simp [emitRegaddrBoard, bracket_eq, returning, registers]

theorem emitBoard_eq (board : Nat) (t : List BridgeState) (s : State) :
    emitBoard board t s =
      { s with sel := s.sel.set board false
               trace := s.trace ++ boardEvents s.par t board
               ret := .unit } := by
  cases h : s.par.encoding <;>
    simp [emitBoard, h, boardEvents, emitDirectBoard_eq, emitRegaddrBoard_eq]

/-- The select lines once the boards listed have been served. -/
def deassertAll (boards : List Nat) (sel : List Bool) : List Bool :=
  boards.foldl (fun l k => l.set k false) sel

theorem emitBoards_eq (boards : List Nat) (t : List BridgeState) (s : State) :
    returning .unit (boards.foldl (fun s board => emitBoard board t s) s) =
      { s with sel := deassertAll boards s.sel
               trace := s.trace ++ boards.flatMap (boardEvents s.par t)
               ret := .unit } := by
  induction boards generalizing s with
  | nil => simp [returning, deassertAll]
  | cons k ks ih =>
    rw [List.foldl_cons, ih, emitBoard_eq]
    simp [deassertAll]

/-- All EMIT does: the frames of every board are appended, every select line of a board is deasserted, and
nothing else changes (R161, R165). -/
theorem emit_eq (ph : Phase) (s : State) :
    emit ph s =
      { s with sel := deassertAll (List.range s.par.nBoards) s.sel
               trace := s.trace ++ emitEvents s.par (targetVector s.par ph s.latch)
               ret := .unit } :=
  emitBoards_eq _ _ _

@[simp] theorem deassertAll_length (boards : List Nat) (sel : List Bool) :
    (deassertAll boards sel).length = sel.length := by
  induction boards generalizing sel with
  | nil => rfl
  | cons k ks ih => simpa [deassertAll] using ih (sel.set k false)

theorem deassertAll_getElem? (boards : List Nat) (sel : List Bool) (k : Nat) :
    (deassertAll boards sel)[k]? = if k ∈ boards then sel[k]?.map fun _ => false else sel[k]? := by
  induction boards generalizing sel with
  | nil => simp [deassertAll]
  | cons j js ih =>
    have step : deassertAll (j :: js) sel = deassertAll js (sel.set j false) := rfl
    rw [step, ih, List.getElem?_set]
    by_cases hj : j = k
    · subst hj
      by_cases hl : j < sel.length <;> simp [hl]
    · have hk : k ≠ j := fun h => hj h.symm
      simp [hj, hk]

theorem deassertAll_replicate (boards : List Nat) (n : Nat) :
    deassertAll boards (List.replicate n false) = List.replicate n false := by
  apply List.ext_getElem?
  intro k
  rw [deassertAll_getElem?]
  split
  · by_cases h : k < n <;> simp [h]
  · rfl

theorem boardEvents_bracketed {p : Params} {board : Nat} (h : board < p.nBoards) (t : List BridgeState) :
    Bracketed p.nBoards (boardEvents p t board) := by
  unfold boardEvents
  split
  · exact track_frame h _
  · exact bracketed_flatMap fun r _ => track_frame h _

theorem emitEvents_bracketed (p : Params) (t : List BridgeState) :
    Bracketed p.nBoards (emitEvents p t) :=
  bracketed_flatMap fun k hk => boardEvents_bracketed (by simpa using hk) t

@[simp] theorem targetVector_length (p : Params) (ph : Phase) (d : List Bool) :
    (targetVector p ph d).length = p.nBridges := by
  simp [targetVector]

theorem targetVector_getElem? (p : Params) (ph : Phase) (d : List Bool) {i : Nat} (h : i < p.nBridges) :
    (targetVector p ph d)[i]? = some (targetOf ph (d.getD i false)) := by
  simp [targetVector, h]

@[simp] theorem chipsDescending_length (p : Params) : p.chipsDescending.length = p.chipsPerBoard := by
  simp [Params.chipsDescending]

theorem chipsDescending_getElem? {p : Params} {c : Nat} (h : c < p.chipsPerBoard) :
    p.chipsDescending[p.chipsPerBoard - 1 - c]? = some c := by
  have h1 : p.chipsPerBoard - 1 - c < p.chipsPerBoard := by omega
  have h2 : p.chipsPerBoard - 1 - (p.chipsPerBoard - 1 - c) = c := by omega
  simp [Params.chipsDescending, h1, h2]

@[simp] theorem wordBytes_length (w : Word) : (wordBytes w).length = 2 := rfl

@[simp] theorem directBytes_length (p : Params) (t : List BridgeState) (board : Nat) :
    (directBytes p t board).length = 2 * p.chipsPerBoard := by
  have h : ∀ l : List Nat, (l.flatMap fun c => wordBytes (chipWord p t board c)).length = 2 * l.length := by
    intro l
    induction l with
    | nil => rfl
    | cons a as ih => simp [List.flatMap_cons, ih]; omega
  simp [directBytes, h]

@[simp] theorem regaddrBytes_length (p : Params) (t : List BridgeState) (board : Nat) (r : Fin 3) :
    (regaddrBytes p t board r).length = 2 * p.chipsPerBoard := by
  simp [regaddrBytes]
  omega

/-- The bytes of a DIRECT frame by position: two for each chip. -/
theorem wordBytes_flatMap_getElem? {α : Type} (f : α → Word) (l : List α) (j : Nat) :
    (l.flatMap fun c => wordBytes (f c))[2 * j]? = l[j]?.map (fun c => hiByte (f c)) ∧
    (l.flatMap fun c => wordBytes (f c))[2 * j + 1]? = l[j]?.map (fun c => loByte (f c)) := by
  induction l generalizing j with
  | nil => simp
  | cons a as ih =>
    rw [List.flatMap_cons, wordBytes]
    cases j with
    | zero => simp
    | succ j =>
      rw [show 2 * (j + 1) = 2 * j + 1 + 1 by omega]
      simpa using ih j

/-- The bytes of a REGADDR frame by position (R96, R170): chip c's address byte and its data byte. -/
theorem regaddrBytes_getElem? (p : Params) (t : List BridgeState) (board : Nat) (r : Fin 3) {c : Nat}
    (hc : c < p.chipsPerBoard) :
    (regaddrBytes p t board r)[p.chipsPerBoard - 1 - c]? = some (p.addrByte r (decide (c = 0))) ∧
    (regaddrBytes p t board r)[p.chipsPerBoard + (p.chipsPerBoard - 1 - c)]? =
      some (chipRegData p t board r c) := by
  unfold regaddrBytes
  constructor
  · rw [List.getElem?_append_left (by simp; omega), List.getElem?_map, chipsDescending_getElem? hc]
    rfl
  · rw [List.getElem?_append_right (by simp)]
    simp [chipsDescending_getElem? hc]

/-- A board's highest bridge lies inside the target vector (R51, R52). -/
theorem board_within (p : Params) {board : Nat} (h : board < p.nBoards) :
    p.encoding.bridgesPerChip * p.globalChip board p.chipsPerBoard ≤ p.nBridges := by
  unfold Params.nBridges Params.nChips Params.globalChip
  rw [Nat.mul_comm]
  apply Nat.mul_le_mul_right
  rw [show board * p.chipsPerBoard + p.chipsPerBoard = (board + 1) * p.chipsPerBoard by ring]
  exact Nat.mul_le_mul_right _ h

/-- Deasserting the lines of the same boards again changes nothing. -/
@[simp] theorem deassertAll_deassertAll (boards : List Nat) (sel : List Bool) :
    deassertAll boards (deassertAll boards sel) = deassertAll boards sel := by
  apply List.ext_getElem?
  intro k
  simp only [deassertAll_getElem?]
  split <;> simp

/-- With every bridge off the target vector is all OFF in every phase (R160). -/
theorem targetVector_off (p : Params) (ph : Phase) {d : List Bool} (h : ∀ i, d.getD i false = false) :
    targetVector p ph d = List.replicate p.nBridges .off := by
  apply List.ext_getElem?
  intro i
  by_cases hi : i < p.nBridges
  · rw [targetVector_getElem? _ _ _ hi, h]
    cases ph <;> simp [hi, targetOf]
  · rw [List.getElem?_eq_none (by simp; omega), List.getElem?_eq_none (by simp; omega)]

end Sys2Proof.Machine
end

