-- ==== Sys2Proof/Laws/Decode.lean ====
section
/-! SUPPORT. The rows of the decode table (30_encoding.md R82), as an inversion lemma. -/

namespace Sys2Proof

/-- Which of the six alternatives the table selects. -/
theorem selectRow_cases {α : Type} (m : Mode) (b : Byte) (cb sb : α) (ii cd : Byte → α) (se : α)
    (sd : Byte → α) :
    (m = .idle ∧ b = 0x80#8 ∧ selectRow m b cb sb ii cd se sd = cb) ∨
    (m = .idle ∧ b = 0x81#8 ∧ selectRow m b cb sb ii cd se sd = sb) ∨
    (m = .idle ∧ b ≠ 0x80#8 ∧ b ≠ 0x81#8 ∧ selectRow m b cb sb ii cd se sd = ii b) ∨
    (m = .receivingConfig ∧ selectRow m b cb sb ii cd se sd = cd b) ∨
    (m = .receivingState ∧ b = 0x82#8 ∧ selectRow m b cb sb ii cd se sd = se) ∨
    (m = .receivingState ∧ b ≠ 0x82#8 ∧ selectRow m b cb sb ii cd se sd = sd b) := by
  unfold selectRow
  cases m
  · by_cases h0 : b = 0x80#8
    · subst h0
      exact .inl ⟨rfl, rfl, rfl⟩
    · by_cases h1 : b = 0x81#8
      · subst h1
        exact .inr (.inl ⟨rfl, rfl, rfl⟩)
      · exact .inr (.inr (.inl ⟨rfl, h0, h1, by simp only [h0, h1, if_false]⟩))
  · exact .inr (.inr (.inr (.inl ⟨rfl, rfl⟩)))
  · by_cases h2 : b = 0x82#8
    · subst h2
      exact .inr (.inr (.inr (.inr (.inl ⟨rfl, rfl, rfl⟩))))
    · exact .inr (.inr (.inr (.inr (.inr ⟨rfl, h2, by simp only [h2, if_false]⟩))))

/-- The rows of R82, one by one. -/
theorem decode_cases (m : Mode) (b : Byte) :
    (m = .idle ∧ b = 0x80#8 ∧ decode m b = .cfgBegin) ∨
    (m = .idle ∧ b = 0x81#8 ∧ decode m b = .stateBegin) ∨
    (m = .idle ∧ b ≠ 0x80#8 ∧ b ≠ 0x81#8 ∧ decode m b = .idleIgnore b) ∨
    (m = .receivingConfig ∧ decode m b = .cfgData b) ∨
    (m = .receivingState ∧ b = 0x82#8 ∧ decode m b = .stateEnd) ∨
    (m = .receivingState ∧ b ≠ 0x82#8 ∧ decode m b = .stateData b) :=
  selectRow_cases ..

end Sys2Proof
end

