-- ==== Sys2Proof/Laws/FrameDecoder.lean ====
section
/-! SUPPORT. What the load operations can do (40_frame_decoder.md): FEED is one of the six, and its whole
frame. -/

namespace Sys2Proof.Machine

@[simp] theorem exec_cfgBegin (s : State) : exec .cfgBegin s = .next (cfgBegin s) := rfl
@[simp] theorem exec_stateBegin (s : State) : exec .stateBegin s = .next (stateBegin s) := rfl
@[simp] theorem exec_idleIgnore (b : Byte) (s : State) :
    exec (.idleIgnore b) s = .next (idleIgnore b s) := rfl
@[simp] theorem exec_cfgData (b : Byte) (s : State) : exec (.cfgData b) s = .next (cfgData b s) := rfl
@[simp] theorem exec_stateEnd (s : State) : exec .stateEnd s = .next (stateEnd s) := rfl
@[simp] theorem exec_stateData (b : Byte) (s : State) :
    exec (.stateData b) s = .next (stateData b s) := rfl
@[simp] theorem exec_feed (b : Byte) (s : State) : exec (.feed b) s = .next (feed b s) := rfl

/-- The registers and outputs a FEED never touches (40_frame_decoder.md R113). -/
structure FeedFrame (s t : State) : Prop where
  par : t.par = s.par
  last : t.last = s.last
  sel : t.sel = s.sel
  en : t.en = s.en
  env : t.env = s.env
  draws : t.draws = s.draws
  trace : t.trace = s.trace ∨ t.trace = s.trace ++ [.diag]

theorem cfgBegin_frame (s : State) : FeedFrame s (cfgBegin s) :=
  ⟨rfl, rfl, rfl, rfl, rfl, rfl, .inl rfl⟩

theorem stateBegin_frame (s : State) : FeedFrame s (stateBegin s) :=
  ⟨rfl, rfl, rfl, rfl, rfl, rfl, .inl rfl⟩

theorem idleIgnore_frame (b : Byte) (s : State) : FeedFrame s (idleIgnore b s) :=
  ⟨rfl, rfl, rfl, rfl, rfl, rfl, .inl rfl⟩

theorem cfgData_frame (b : Byte) (s : State) : FeedFrame s (cfgData b s) := by
  unfold cfgData
  dsimp only
  split <;> exact ⟨rfl, rfl, rfl, rfl, rfl, rfl, .inl rfl⟩

theorem stateEnd_frame (s : State) : FeedFrame s (stateEnd s) :=
  ⟨rfl, rfl, rfl, rfl, rfl, rfl, .inl rfl⟩

theorem acceptStateByte_frame (b : Byte) (s : State) : FeedFrame s (acceptStateByte b s) :=
  ⟨rfl, rfl, rfl, rfl, rfl, rfl, .inl rfl⟩

theorem stateData_frame (b : Byte) (s : State) : FeedFrame s (stateData b s) := by
  unfold stateData
  split
  · exact ⟨rfl, rfl, rfl, rfl, rfl, rfl, .inr rfl⟩
  · exact acceptStateByte_frame b s

/-- FEED is the operation the table of R82 selects. -/
theorem feed_cases (b : Byte) (s : State) :
    (s.mode = .idle ∧ b = 0x80#8 ∧ feed b s = cfgBegin s) ∨
    (s.mode = .idle ∧ b = 0x81#8 ∧ feed b s = stateBegin s) ∨
    (s.mode = .idle ∧ b ≠ 0x80#8 ∧ b ≠ 0x81#8 ∧ feed b s = idleIgnore b s) ∨
    (s.mode = .receivingConfig ∧ feed b s = cfgData b s) ∨
    (s.mode = .receivingState ∧ b = 0x82#8 ∧ feed b s = stateEnd s) ∨
    (s.mode = .receivingState ∧ b ≠ 0x82#8 ∧ feed b s = stateData b s) :=
  selectRow_cases ..

theorem feed_frame (b : Byte) (s : State) : FeedFrame s (feed b s) := by
  obtain ⟨-, -, h⟩ | ⟨-, -, h⟩ | ⟨-, -, -, h⟩ | ⟨-, h⟩ | ⟨-, -, h⟩ | ⟨-, -, h⟩ := feed_cases b s
  · exact h ▸ cfgBegin_frame s
  · exact h ▸ stateBegin_frame s
  · exact h ▸ idleIgnore_frame b s
  · exact h ▸ cfgData_frame b s
  · exact h ▸ stateEnd_frame s
  · exact h ▸ stateData_frame b s

@[simp] theorem byCommit_incremental {α : Type} {s : State} (h : s.par.stateCommit = .incremental)
    (x y : α) : byCommit s x y = x := by
  simp [byCommit, h]

@[simp] theorem byCommit_atFrameEnd {α : Type} {s : State} (h : s.par.stateCommit = .atFrameEnd)
    (x y : α) : byCommit s x y = y := by
  simp [byCommit, h]

/-- The choice depends on the parameters only. -/
theorem byCommit_congr {α : Type} {s t : State} (h : t.par = s.par) (x y : α) :
    byCommit t x y = byCommit s x y := by
  simp [byCommit, h]

/-- The vector a state frame writes reads back after it is written (R30). -/
@[simp] theorem frameVector_setFrameVector (v : List Bool) (s : State) :
    frameVector (setFrameVector v s) = v := by
  cases h : s.par.stateCommit <;> simp [frameVector, setFrameVector, byCommit, h]

/-- An accepted state byte, both commit policies at once. -/
theorem acceptStateByte_vector (b : Byte) (s : State) :
    frameVector (acceptStateByte b s) =
      writeFlags s.par.nBridges (s.par.stateMap.base s.cnt) (s.par.stateMap.width s.cnt) b
        (frameVector s) :=
  frameVector_setFrameVector
    (writeFlags s.par.nBridges (s.par.stateMap.base s.cnt) (s.par.stateMap.width s.cnt) b (frameVector s)) s

theorem cfgData_eq_of_lt {s : State} (h : s.cnt < 7) (b : Byte) :
    cfgData b s =
      { s with acc := s.acc.setByte s.cnt b, cnt := s.cnt + 1, ret := .event .none } := by
  have h8 : s.cnt + 1 ≠ 8 := by omega
  simp [cfgData, h8, returning]

theorem cfgData_eq_of_eq {s : State} (h : s.cnt = 7) (b : Byte) :
    cfgData b s =
      { s with acc := s.acc.setByte 7 b, cfg := s.acc.setByte 7 b, cnt := 8, mode := .idle,
               ret := .event (.configReady (s.acc.setByte 7 b)) } := by
  simp [cfgData, latchConfig, h, returning]

/-- The table read from the bridge's side is the range the byte writes (R86, R87, R119). -/
theorem flagBit_eq (m : StateMap) (cnt i : Nat) :
    flagBit m cnt i =
      if m.base cnt ≤ i ∧ i < m.base cnt + m.width cnt then some (i - m.base cnt) else none := by
  cases m
  · simp only [flagBit, StateMap.base, StateMap.width]
    by_cases hc : cnt % 2 = 0
    · simp only [hc, if_true]
      by_cases h : 9 * (cnt / 2) ≤ i ∧ i < 9 * (cnt / 2) + 7
      · rw [if_pos h, if_pos (by omega), if_pos (by omega)]
        congr 1
        omega
      · rw [if_neg h]
        split
        · rw [if_neg (by omega)]
        · rfl
    · simp only [hc, if_false]
      by_cases h : 9 * (cnt / 2) + 7 ≤ i ∧ i < 9 * (cnt / 2) + 7 + 2
      · rw [if_pos h, if_pos (by omega), if_pos (by omega)]
        congr 1
        omega
      · rw [if_neg h]
        split
        · rw [if_neg (by omega)]
        · rfl
  · show (if i / 6 = cnt then some (i % 6) else none) =
      if 6 * cnt ≤ i ∧ i < 6 * cnt + 6 then some (i - 6 * cnt) else none
    by_cases h : 6 * cnt ≤ i ∧ i < 6 * cnt + 6
    · rw [if_pos h, if_pos (by omega)]
      congr 1
      omega
    · rw [if_neg h, if_neg (by omega)]
  · show (if i / 8 = cnt then some (i % 8) else none) =
      if 8 * cnt ≤ i ∧ i < 8 * cnt + 8 then some (i - 8 * cnt) else none
    by_cases h : 8 * cnt ≤ i ∧ i < 8 * cnt + 8
    · rw [if_pos h, if_pos (by omega)]
      congr 1
      omega
    · rw [if_neg h, if_neg (by omega)]

/-- What a data byte writes into a vector of N elements (R119). -/
theorem flagsWritten_writeFlags (m : StateMap) {n : Nat} (cnt : Nat) (b : Byte) {v : List Bool}
    (h : v.length = n) :
    FlagsWritten m cnt b v (writeFlags n (m.base cnt) (m.width cnt) b v) := by
  refine ⟨by simp, fun i hi => ?_⟩
  rw [writeFlags_getElem?, flagBit_eq]
  by_cases hc : m.base cnt ≤ i ∧ i < m.base cnt + m.width cnt
  · rw [if_pos hc, if_pos (by omega)]
    simp [hi]
  · rw [if_neg hc, if_neg (by omega)]

/-- Feeding a list of bytes never stops. -/
theorem feedList_eq (bs : List Byte) (s : State) :
    feedList bs s = .next (bs.foldl (fun s b => feed b s) s) := by
  unfold feedList
  induction bs generalizing s with
  | nil => rfl
  | cons b bs ih =>
    rw [List.foldl_cons, List.foldl_cons, ← ih]
    rfl

theorem foldl_or_getLsbD (l : List Byte) (a : Byte) (j : Nat) :
    (l.foldl (· ||| ·) a).getLsbD j = (a.getLsbD j || l.any fun x => x.getLsbD j) := by
  induction l generalizing a with
  | nil => simp
  | cons x xs ih => simp [ih, Bool.or_assoc]

/-- A used bit of the byte a host sends for `v` is the bridge it stands for (R54). -/
theorem stateByte_getLsbD (m : StateMap) (v : List Bool) {cnt j : Nat} (hj : j < m.width cnt) :
    (stateByte m v cnt).getLsbD j = v.getD (m.base cnt + j) false := by
  have hw : m.width cnt ≤ 8 := by 
    cases m <;> simp [StateMap.width]
    split <;> omega
  have hj8 : j < 8 := by omega
  unfold stateByte
  rw [foldl_or_getLsbD, Bool.eq_iff_iff]
  simp only [BitVec.getLsbD_zero, Bool.false_or, List.any_map, List.any_eq_true, List.mem_range,
    Function.comp]
  constructor
  · rintro ⟨k, hk, hb⟩
    split at hb
    · rename_i hv
      simp [hj8] at hb
      have : k = j := by omega
      subst this
      exact hv
    · simp at hb
  · intro hv
    refine ⟨j, hj, ?_⟩
    rw [if_pos hv]
    simp [hj8]

/-- Running the operation a byte decodes to is feeding the byte (R113). -/
theorem exec_decode (b : Byte) (s : State) : exec (decode s.mode b) s = .next (feed b s) := by
  unfold decode feed
  cases s.mode
  · unfold selectRow
    dsimp only
    split
    · rfl
    · split <;> rfl
  · rfl
  · unfold selectRow
    dsimp only
    split <;> rfl

end Sys2Proof.Machine
end

