-- ==== Sys2Proof/Laws/Scheduler.lean ====
section
/-! SUPPORT. What PHASE_OF and TICK can do (41_scheduler.md). -/

namespace Sys2Proof.Machine

@[simp] theorem exec_phaseOf (now : Nat) (s : State) :
    exec (.phaseOf now) s = .next (returning (.phase (phaseOf s.par s.cfg now)) s) := rfl
@[simp] theorem exec_tick (now : Nat) (s : State) : exec (.tick now) s = .next (tick now s) := rfl

/-- The four intervals of a period, in terms of the durations (R140, R146). -/
theorem phaseAt_cases (c : TimingConfig) (e : Nat) :
    (e < c.up.toNat ∧ phaseAt c e = .pulseForward) ∨
    (c.up.toNat ≤ e ∧ e < c.up.toNat + c.inter.toNat ∧ phaseAt c e = .idleAfterForward) ∨
    (c.up.toNat + c.inter.toNat ≤ e ∧ e < c.up.toNat + c.inter.toNat + c.down.toNat ∧
      phaseAt c e = .pulseReverse) ∨
    (c.up.toNat + c.inter.toNat + c.down.toNat ≤ e ∧ phaseAt c e = .idleAfterReverse) := by
  unfold phaseAt boundary3 boundary2 boundary1
  by_cases h1 : e < c.up.toNat
  · simp [h1]
  · by_cases h2 : e < c.up.toNat + c.inter.toNat
    · simp [h1, h2]
      omega
    · by_cases h3 : e < c.up.toNat + c.inter.toNat + c.down.toNat
      · simp [h1, h2, h3]
        omega
      · simp [h1, h2, h3]
        omega

theorem period_eq (c : TimingConfig) :
    period c = c.up.toNat + c.inter.toNat + c.down.toNat + c.pause.toNat := rfl

theorem phaseOf_of_pos (p : Params) {c : TimingConfig} (h : 0 < period c) (now : Nat) :
    phaseOf p c now = phaseAt c (p.reading now % period c) := by
  rw [phaseOf, if_neg (by omega)]

/-- All TICK can do: nothing, or one EMIT of the computed phase, recorded in `last` (R143, R144). -/
theorem tick_cases (now : Nat) (s : State) :
    (suppressed s.par s.cfg (phaseOf s.par s.cfg now) = true ∧ tick now s = returning .unit s) ∨
    (suppressed s.par s.cfg (phaseOf s.par s.cfg now) = false ∧
      emissionDue s.par s.last (phaseOf s.par s.cfg now) = true ∧
      tick now s = { emit (phaseOf s.par s.cfg now) s with last := some (phaseOf s.par s.cfg now) }) ∨
    (suppressed s.par s.cfg (phaseOf s.par s.cfg now) = false ∧
      emissionDue s.par s.last (phaseOf s.par s.cfg now) = false ∧ tick now s = returning .unit s) := by
  unfold tick
  dsimp only
  generalize phaseOf s.par s.cfg now = ph
  cases suppressed s.par s.cfg ph
  · cases emissionDue s.par s.last ph
    · simp
    · simp [returning, emit]
  · simp

/-- TICK changes only the select lines, the trace, `last` and the result port, and the trace only by the
frames of one EMIT (R61, R143). -/
theorem tick_eq (now : Nat) (s : State) :
    ∃ sel last es, tick now s = { s with sel := sel, last := last, trace := s.trace ++ es, ret := .unit } ∧
      ((es = [] ∧ last = s.last ∧ sel = s.sel) ∨
        ∃ ph, last = some ph ∧ es = emitEvents s.par (targetVector s.par ph s.latch) ∧
          sel = deassertAll (List.range s.par.nBoards) s.sel) := by
  obtain ⟨-, h⟩ | ⟨-, -, h⟩ | ⟨-, -, h⟩ := tick_cases now s
  · exact ⟨s.sel, s.last, [], by simp [h, returning], .inl ⟨rfl, rfl, rfl⟩⟩
  · refine ⟨_, _, _, ?_, .inr ⟨phaseOf s.par s.cfg now, rfl, rfl, rfl⟩⟩
    rw [h, emit_eq]
  · exact ⟨s.sel, s.last, [], by simp [h, returning], .inl ⟨rfl, rfl, rfl⟩⟩

/-- TICK does not see the result port. -/
@[simp] theorem tick_returning (now : Nat) (r : Ret) (s : State) : tick now (returning r s) = tick now s := by
  unfold tick
  simp only [returning_par, returning_cfg, returning_last, emit_eq, returning_latch, returning_sel,
    returning_trace]
  split
  · rfl
  · split <;> rfl

/-- TICK's suppression test is a pulse short of MIN_PULSE (R144). -/
theorem suppressed_iff (s : State) (ph : Phase) : suppressed s.par s.cfg ph = true ↔ ShortPulse s ph := by
  cases ph <;> simp [suppressed, ShortPulse]

/-- TICK keeps every register of the FrameDecoder and the two it loads (R21, R25). -/
theorem tick_sameDecoderState (now : Nat) (s : State) : SameDecoderState s (tick now s) := by
  obtain ⟨sel, last, es, h, -⟩ := tick_eq now s
  rw [h]
  exact ⟨rfl, rfl, rfl, rfl, rfl, rfl⟩

end Sys2Proof.Machine
end

