-- ==== Sys2Proof/Laws/Controller.lean ====
section
/-! SUPPORT. What APPLY and STEP can do (43_controller.md), and one step of the machine. -/

namespace Sys2Proof.Machine

@[simp] theorem exec_apply (ev : DecoderEvent) (s : State) : exec (.apply ev) s = .next (applyEvent ev s) := rfl
@[simp] theorem exec_step (inp : Option Byte) (now : Nat) (s : State) :
    exec (.step inp now) s = .next (controllerStep inp now s) := rfl

theorem step_eq (s : State) :
    step s = .next (controllerStep (nextInput s).byte (nextInput s).now (takeInput s)) := rfl

/-- The STEP after placing a table word reads its byte at the next free draw (log entry 21). -/
theorem nextInput_withFetchWord (s : State) (nbits w : Nat) :
    nextInput (s.withFetchWord nbits w) = ⟨some (BitVec.ofNat 8 w), Config.freeNow s.draws⟩ := rfl

/-- Once the placed byte is taken, only the mode and the count of draws differ. -/
theorem takeInput_withFetchWord (s : State) (nbits w : Nat) :
    takeInput (s.withFetchWord nbits w) = { s with mode := tableMode w, draws := s.draws + 1 } := rfl

/-- APPLY of the event a FEED has just returned stores what is already there (R115, R123, R191). -/
theorem applyEvent_feed (b : Byte) (s : State) :
    ∃ e, (feed b s).ret = .event e ∧ applyEvent e (feed b s) = returning .unit (feed b s) := by
  obtain ⟨-, -, h⟩ | ⟨-, -, h⟩ | ⟨-, -, -, h⟩ | ⟨-, h⟩ | ⟨-, -, h⟩ | ⟨-, -, h⟩ := feed_cases b s
  · exact ⟨.none, by rw [h]; rfl, rfl⟩
  · exact ⟨.none, by rw [h]; rfl, rfl⟩
  · exact ⟨.none, by rw [h]; rfl, rfl⟩
  · rw [h]
    unfold cfgData
    dsimp only
    split
    · exact ⟨_, rfl, rfl⟩
    · exact ⟨.none, rfl, rfl⟩
  · rw [h]
    exact ⟨_, rfl, rfl⟩
  · rw [h]
    unfold stateData
    split
    · exact ⟨.none, rfl, rfl⟩
    · exact ⟨.none, rfl, rfl⟩

/-- The input half of a STEP is FEED and nothing more. -/
theorem serveInput_some (b : Byte) (s : State) : serveInput (some b) s = returning .unit (feed b s) := by
  obtain ⟨e, he, ha⟩ := applyEvent_feed b s
  simp [serveInput, he, eventOf, ha]

/-- STEP with a byte is FEED and then TICK (R190, R191). -/
theorem controllerStep_some (b : Byte) (now : Nat) (s : State) :
    controllerStep (some b) now s = tick now (feed b s) := by
  rw [controllerStep, serveInput_some, tick_returning]

theorem controllerStep_none (now : Nat) (s : State) : controllerStep none now s = tick now s := rfl

theorem serveInput_none (s : State) : serveInput none s = s := rfl

/-- The input half of a STEP keeps FEED's frame. -/
theorem serveInput_frame (inp : Option Byte) (s : State) : FeedFrame s (serveInput inp s) := by
  cases inp with
  | none => exact ⟨rfl, rfl, rfl, rfl, rfl, rfl, .inl rfl⟩
  | some b =>
    rw [serveInput_some]
    obtain ⟨h1, h2, h3, h4, h5, h6, h7⟩ := feed_frame b s
    exact ⟨h1, h2, h3, h4, h5, h6, h7⟩

end Sys2Proof.Machine
end

