-- ==== Sys2Proof/Laws/PerInstr.lean ====
section
/-! SUPPORT. The family `Reencode`: whatever mode and byte the decoder reads an operation from, the encoder
gives that mode and byte back, and the operation is well-formed (30_encoding.md R82). -/

namespace Sys2Proof.Laws.Reencode

/-- A decoded operation re-encodes to what it was decoded from and is well-formed. -/
def Statement (i : Instr) : Prop :=
  ∀ (m : Mode) (b : Byte), decode m b = i → encode i = some (m, b) ∧ ∀ p, i.wf p = true

theorem of_decode (m : Mode) (b : Byte) :
    encode (decode m b) = some (m, b) ∧ ∀ p, (decode m b).wf p = true := by
  obtain ⟨rfl, rfl, h⟩ | ⟨rfl, rfl, h⟩ | ⟨rfl, h0, h1, h⟩ | ⟨rfl, h⟩ | ⟨rfl, rfl, h⟩ | ⟨rfl, h2, h⟩ :=
    decode_cases m b <;> simp_all [encode, Instr.wf]

theorem cfgBegin : Statement .cfgBegin := fun m b h => h ▸ of_decode m b
theorem stateBegin : Statement .stateBegin := fun m b h => h ▸ of_decode m b
theorem idleIgnore (c : Byte) : Statement (.idleIgnore c) := fun m b h => h ▸ of_decode m b
theorem cfgData (c : Byte) : Statement (.cfgData c) := fun m b h => h ▸ of_decode m b
theorem stateEnd : Statement .stateEnd := fun m b h => h ▸ of_decode m b
theorem stateData (c : Byte) : Statement (.stateData c) := fun m b h => h ▸ of_decode m b
theorem feed (c : Byte) : Statement (.feed c) := fun m b h => h ▸ of_decode m b
theorem phaseOf (now : Nat) : Statement (.phaseOf now) := fun m b h => h ▸ of_decode m b
theorem tick (now : Nat) : Statement (.tick now) := fun m b h => h ▸ of_decode m b
theorem target (ph : Phase) : Statement (.target ph) := fun m b h => h ▸ of_decode m b
theorem emit (ph : Phase) : Statement (.emit ph) := fun m b h => h ▸ of_decode m b
theorem word (t0 t1 t2 : BridgeState) : Statement (.word t0 t1 t2) := fun m b h => h ▸ of_decode m b
theorem emitDirectBoard (k : Nat) (t : List BridgeState) : Statement (.emitDirectBoard k t) :=
  fun m b h => h ▸ of_decode m b
theorem dataByte (te tOdd : BridgeState) : Statement (.dataByte te tOdd) := fun m b h => h ▸ of_decode m b
theorem emitRegaddrBoard (k : Nat) (t : List BridgeState) : Statement (.emitRegaddrBoard k t) :=
  fun m b h => h ▸ of_decode m b
theorem apply (ev : DecoderEvent) : Statement (.apply ev) := fun m b h => h ▸ of_decode m b
theorem step (inp : Option Byte) (now : Nat) : Statement (.step inp now) := fun m b h => h ▸ of_decode m b

end Sys2Proof.Laws.Reencode
end

