-- ==== Sys2Proof/Tests/Slice0.lean ====
section
/-! SUPPORT. Tests on small states, with expected results from 95_test_vectors.md (the id of the row stands
in the docstring) and from the encoding tables of 30_encoding.md, and one witness for the hypotheses of
each statement that has any. -/

namespace Sys2Proof.Tests

open Sys2Proof Sys2Proof.Machine

/-- The parameters section 2.1 of 95_test_vectors.md assumes (DIRECT, 1 board of 3 chips, N = 9, UNIT9),
with address bytes written out. -/
def params : Params :=
  { Params.representative with
    timeUnit := "us", addrMid := #v[0xA0, 0xA1, 0xA2], addrLast := #v[0xB0, 0xB1, 0xB2] }

/-- DIRECT with the given boards, one chip each. -/
def boards (n : Nat) : Params := { params with nBoards := n, chipsPerBoard := 1 }

/-- REGADDR, one board with the given number of chips. -/
def regChips (n : Nat) : Params := { params with encoding := .regaddr, chipsPerBoard := n, stateMap := .flat6 }

/-- A vector from its bit string, `D[0]` leftmost. -/
def bits (l : List Nat) : List Bool := l.map fun x => decide (x = 1)

/-- The reset state under parameters `p` with the given latch. -/
def loaded (p : Params) (l : List Nat) : State := { State.resetWith p with latch := bits l }

/-- A state frame in progress. -/
def receiving (p : Params) (cnt : Nat) (l : List Nat) : State :=
  { loaded p l with mode := .receivingState, cnt := cnt }

/-- A configuration frame in progress. -/
def configuring (cnt : Nat) (acc : TimingConfig) : State :=
  { State.resetWith params with mode := .receivingConfig, cnt := cnt, acc := acc, cfg := ⟨9, 9, 9, 9⟩ }

/-- A running waveform. -/
def running (p : Params) (c : TimingConfig) (last : Option Phase) : State :=
  { State.resetWith p with cfg := c, last := last }

/-- A field of the next state, if there is one. -/
def after {α : Type} (o : Result) (f : State → α) : Option α :=
  match o with
  | .next s => some (f s)
  | .fault _ => none
  | .refused _ => none

/-- The fault, if there is one. -/
def faultOf (o : Result) : Option Fault :=
  match o with
  | .next _ => none
  | .fault r => some r
  | .refused _ => none

/-! ### Well-formedness: one ill-formed term for each check -/

theorem test_wf_admits_operands :
    (Instr.wf params (.idleIgnore 0x82) && Instr.wf params (.stateData 0x80) &&
      Instr.wf params (.emitDirectBoard 0 (List.replicate 9 .off)) &&
      Instr.wf params (.tick (2 ^ 32 - 1)) && params.wf) = true := by decide
theorem test_wf_refuses_idle_markers :
    Instr.wf params (.idleIgnore 0x80) = false ∧ Instr.wf params (.idleIgnore 0x81) = false := by decide
theorem test_wf_refuses_sentinel_as_data : Instr.wf params (.stateData 0x82) = false := by decide
theorem test_wf_refuses_wide_readings :
    Instr.wf params (.phaseOf (2 ^ 32)) = false ∧ Instr.wf params (.tick (2 ^ 32)) = false ∧
      Instr.wf params (.step none (2 ^ 32)) = false := by decide
theorem test_wf_refuses_absent_board :
    Instr.wf params (.emitDirectBoard 1 (List.replicate 9 .off)) = false ∧
      Instr.wf (regChips 1) (.emitRegaddrBoard 1 (List.replicate 6 .off)) = false := by decide
theorem test_wf_refuses_short_targets :
    Instr.wf params (.emitDirectBoard 0 (List.replicate 8 .off)) = false ∧
      Instr.wf (regChips 1) (.emitRegaddrBoard 0 (List.replicate 5 .off)) = false := by decide
theorem test_wf_refuses_other_encoding :
    Instr.wf (regChips 1) (.emitDirectBoard 0 (List.replicate 6 .off)) = false ∧
      Instr.wf params (.emitRegaddrBoard 0 (List.replicate 9 .off)) = false := by decide
theorem test_wf_refuses_short_event : Instr.wf params (.apply (.stateReady (bits [1, 0]))) = false := by
  decide
theorem test_wf_refuses_no_board_and_no_chip :
    ({ params with nBoards := 0 }).wf = false ∧ ({ params with chipsPerBoard := 0 }).wf = false := by decide

/-! ### Decoding: words written out from R81 and R82 -/

theorem test_decode_cfgBegin : decode .idle 0b10000000#8 = .cfgBegin := by decide
theorem test_decode_stateBegin : decode .idle 0b10000001#8 = .stateBegin := by decide
theorem test_decode_idleIgnore :
    decode .idle 0b00000000#8 = .idleIgnore 0x00 ∧ decode .idle 0b01111111#8 = .idleIgnore 0x7F ∧
      decode .idle 0b10000010#8 = .idleIgnore 0x82 ∧ decode .idle 0b11111111#8 = .idleIgnore 0xFF := by decide
theorem test_decode_cfgData :
    decode .receivingConfig 0b10000000#8 = .cfgData 0x80 ∧
      decode .receivingConfig 0b10000010#8 = .cfgData 0x82 := by decide
theorem test_decode_stateEnd : decode .receivingState 0b10000010#8 = .stateEnd := by decide
theorem test_decode_stateData :
    decode .receivingState 0b10000001#8 = .stateData 0x81 ∧
      decode .receivingState 0b10000011#8 = .stateData 0x83 := by decide
theorem test_encode_markers :
    encode .cfgBegin = some (.idle, 0b10000000) ∧ encode .stateBegin = some (.idle, 0b10000001) ∧
      encode .stateEnd = some (.receivingState, 0b10000010) ∧
      encode (.cfgData 0x05) = some (.receivingConfig, 0b00000101) ∧ encode (.feed 0x80) = none := by decide
/-- S2: the stream of CFG(1000, 0, 1000, 0). -/
theorem test_cfgFrame :
    cfgFrame ⟨1000, 0, 1000, 0⟩ = [0x80, 0xE8, 0x03, 0x00, 0x00, 0xE8, 0x03, 0x00, 0x00] := by decide
/-- P1 and F38: the data bytes of 101000010 under UNIT9. -/
theorem test_stateFrame :
    stateFrame ((List.range 2).map (stateByte .unit9 (bits [1, 0, 1, 0, 0, 0, 0, 1, 0]))) =
      [0x81, 0x05, 0x01, 0x82] := by decide

/-! ### FrameDecoder -/

/-- F1. -/
theorem test_cfgBegin :
    after (exec (.feed 0x80) { State.resetWith params with cnt := 5, acc := ⟨1, 2, 3, 4⟩ })
      (fun t => (t.mode, t.cnt, t.acc)) = some (.receivingConfig, 0, ⟨0, 0, 0, 0⟩) := by decide
/-- F5. -/
theorem test_stateBegin_loads_shadow :
    after (exec .stateBegin
        { loaded { params with stateCommit := .atFrameEnd } [1, 1, 0, 0, 0, 0, 0, 0, 0] with
          shadow := bits [0, 0, 0, 0, 0, 0, 0, 0, 1] })
      (fun t => (t.shadow, t.latch)) =
      some (bits [1, 1, 0, 0, 0, 0, 0, 0, 0], bits [1, 1, 0, 0, 0, 0, 0, 0, 0]) := by decide
/-- F3. -/
theorem test_stateBegin_clears :
    after (exec .stateBegin (loaded { params with clearOnStateBegin := true } [1, 1, 0, 0, 0, 0, 0, 0, 0]))
      (fun t => (t.mode, t.latch)) = some (.receivingState, bits [0, 0, 0, 0, 0, 0, 0, 0, 0]) := by decide
/-- F6. -/
theorem test_idleIgnore_keeps_cnt :
    after (exec (.feed 0x82) { State.resetWith params with cnt := 3 }) (fun t => (t.mode, t.cnt, t.ret)) =
      some (.idle, 3, .event .none) := by decide
/-- F11. -/
theorem test_cfgData_high_byte :
    after (exec (.feed 0x82) (configuring 1 ⟨0x0080, 0, 0, 0⟩)) (fun t => (t.cnt, t.acc.up)) =
      some (2, 33408) := by decide
/-- F13. -/
theorem test_cfgData_latches :
    after (exec (.cfgData 0xFF) (configuring 7 ⟨1, 2, 3, 0x00FF⟩)) (fun t => (t.mode, t.cnt, t.cfg, t.ret)) =
      some (.idle, 8, ⟨1, 2, 3, 65535⟩, .event (.configReady ⟨1, 2, 3, 65535⟩)) := by decide
/-- F26. -/
theorem test_stateEnd_commits :
    after (exec .stateEnd
        { receiving { params with stateCommit := .atFrameEnd } 1 [1, 0, 1, 0, 0, 0, 0, 0, 0] with
          shadow := bits [0, 0, 0, 0, 0, 0, 1, 1, 1] })
      (fun t => (t.latch, t.mode)) = some (bits [0, 0, 0, 0, 0, 0, 1, 1, 1], .idle) := by decide
/-- F21: the odd byte of a unit carries bridges 7 and 8 only. -/
theorem test_stateData_odd_byte :
    after (exec (.stateData 0xFD) (receiving params 1 [0, 0, 0, 0, 0, 0, 0, 0, 0])) (fun t => t.latch) =
      some (bits [0, 0, 0, 0, 0, 0, 0, 1, 0]) := by decide
/-- F23. -/
theorem test_stateData_hard_stop :
    after (exec (.stateData 0x7F) (receiving { params with unitLimit := some 1 } 2 [1, 1, 1, 1, 1, 1, 1, 1, 1]))
      (fun t => (t.mode, t.cnt, t.trace)) = some (.idle, 2, [.diag]) := by decide
/-- F19: the byte 0x80 is data inside a state frame. -/
theorem test_feed_marker_as_data :
    after (exec (.feed 0x80) (receiving params 0 [0, 0, 0, 0, 0, 0, 0, 0, 0])) (fun t => (t.mode, t.cnt)) =
      some (.receivingState, 1) := by decide
/-- S3: one bit, then the sentinel. -/
theorem test_one_bit_state_frame :
    after (feedList [0x81, 0x01, 0x82] (State.resetWith params)) (fun t => (t.latch, t.mode, t.cnt)) =
      some (bits [1, 0, 0, 0, 0, 0, 0, 0, 0], .idle, 1) := by decide
/-- F33: under FLAT8 the sentinel wins. -/
theorem test_flat8_sentinel :
    after (feedList [0x81, 0xFF, 0x82, 0x01] (State.resetWith { params with stateMap := .flat8 }))
      (fun t => (t.latch, t.mode, t.cnt)) = some (bits [1, 1, 1, 1, 1, 1, 1, 1, 0], .idle, 1) := by decide

/-! ### WaveformScheduler -/

/-- S4 and PH1: the reading 4294967295 lies at position 5. -/
theorem test_phaseOf_positions :
    [0, 3, 5, 9, 10, 27, 4294967295].map (phaseOf params ⟨3, 2, 4, 1⟩) =
      [.pulseForward, .idleAfterForward, .pulseReverse, .idleAfterReverse, .pulseForward, .pulseReverse,
        .pulseReverse] := by decide
/-- PH10: the sums do not wrap at 16 bits. -/
theorem test_phaseOf_wide_sums :
    after (exec (.phaseOf 79999) (running params ⟨40000, 40000, 0, 0⟩ none)) (fun t => t.ret) =
      some (.phase .idleAfterForward) := by decide
/-- T4. -/
theorem test_tick_emits_on_edge :
    after (exec (.tick 1000) (running params ⟨1000, 0, 1000, 0⟩ (some .pulseForward)))
      (fun t => (t.last, t.trace.length)) = some (some .pulseReverse, 8) := by decide
/-- T7. -/
theorem test_tick_suppresses :
    after (exec (.tick 2) (running { params with minPulse := 10 } ⟨5, 100, 200, 100⟩ (some .idleAfterReverse)))
      (fun t => (t.last, t.trace)) = some (some .idleAfterReverse, []) := by decide

/-! ### BitPacker -/

/-- Section 2.4, D = 101 in PULSE_REVERSE. -/
theorem test_target_reverse :
    after (exec (.target .pulseReverse) (loaded (boards 1) [1, 0, 1])) (fun t => t.ret) =
      some (.target [.reverse, .off, .reverse]) := by decide
/-- Section 2.4, rows (F, O, R), (O, R, F) and (F, R, R). -/
theorem test_word_values :
    directWord params .forward .off .reverse = 0x19A4 ∧ directWord params .off .reverse .forward = 0x1E48 ∧
      directWord params .forward .reverse .reverse = 0x1FAC := by decide
theorem test_word_returns :
    after (exec (.word .forward .off .forward) (State.resetWith params)) (fun t => t.ret) =
      some (.word 0x19C4) := by decide
/-- S5. -/
theorem test_dataByte_low_nibble :
    after (exec (.dataByte .forward .off) (State.resetWith params)) (fun t => t.ret) =
      some (.byte 0x06) := by decide
/-- E1. -/
theorem test_emit_direct_chain :
    after (exec (.emit .pulseForward) (loaded params [1, 0, 0, 0, 0, 0, 0, 0, 0])) (fun t => t.trace) =
      some [.select 0, .shift 0, .shift 0, .shift 0, .shift 0, .shift 0x01, .shift 0x84, .deselect 0] := by
  decide
/-- E11. -/
theorem test_emit_regaddr_chain :
    after (exec (.emit .pulseForward) (loaded (regChips 2) [1, 0, 0, 1, 0, 0, 0, 0, 0, 0, 1, 0]))
      (fun t => t.trace) =
      some [.select 0, .shift 0xA0, .shift 0xB0, .shift 0x00, .shift 0x06, .deselect 0,
        .select 0, .shift 0xA1, .shift 0xB1, .shift 0x00, .shift 0x60, .deselect 0,
        .select 0, .shift 0xA2, .shift 0xB2, .shift 0x06, .shift 0x00, .deselect 0] := by decide
/-- E6, board 1. -/
theorem test_emitDirectBoard_second_board :
    after (exec (.emitDirectBoard 1 [.forward, .off, .off, .forward, .off, .forward])
      (State.resetWith (boards 2))) (fun t => (t.trace, t.sel)) =
      some ([.select 1, .shift 0x19, .shift 0xC4, .deselect 1], [false, false]) := by decide
/-- E10. -/
theorem test_emitRegaddrBoard_reverse :
    after (exec (.emitRegaddrBoard 0 [.reverse, .reverse, .off, .off, .off, .reverse])
      (State.resetWith (regChips 1))) (fun t => t.trace) =
      some [.select 0, .shift 0xB0, .shift 0x99, .deselect 0, .select 0, .shift 0xB1, .shift 0x00, .deselect 0,
        .select 0, .shift 0xB2, .shift 0x90, .deselect 0] := by decide

/-! ### Controller -/

/-- R191: StateReady. -/
theorem test_apply_stateReady :
    after (exec (.apply (.stateReady (bits [1, 1, 0]))) (loaded (boards 1) [0, 0, 1])) (fun t => t.latch) =
      some (bits [1, 1, 0]) := by decide
/-- X4: the diagnostic precedes the bus events of the same STEP. -/
theorem test_step_diag_first :
    after (exec (.step (some 0x01) 0)
      { receiving { boards 1 with unitLimit := some 0, emitPolicy := .always, stateMap := .flat6 } 0 [0, 0, 0] with
        cfg := ⟨0, 0, 0, 1⟩, last := some .idleAfterReverse }) (fun t => t.trace) =
      some [.diag, .select 0, .shift 0, .shift 0, .deselect 0] := by decide
/-- T11: the configuration latched in a STEP acts in its TICK. -/
theorem test_step_new_configuration :
    after (exec (.step (some 0x00) 5)
      { configuring 7 ⟨2, 3, 2, 3⟩ with cfg := ⟨10, 0, 10, 0⟩, last := some .pulseForward })
      (fun t => (t.cfg, t.last)) = some (⟨2, 3, 2, 3⟩, some .pulseReverse) := by decide
/-- X2, through the machine's own step and its script. -/
theorem test_step_takes_script :
    after (step (pushInput ⟨some 0x80, 7⟩ (State.resetWith (boards 1)))) (fun t => (t.mode, t.env, t.trace)) =
      some (.receivingConfig, [], [.select 0, .shift 0, .shift 0, .deselect 0]) := by decide

/-! ### Witnesses: the hypotheses of each statement, met together -/

theorem witness_DecodeAndEncodeAgree :
    Instr.wf params (.stateData 0x81) = true ∧ encode (.stateData 0x81) = some (.receivingState, 0x81) ∧
      Instr.wf params (.idleIgnore 0x7F) = true ∧ encode (.idleIgnore 0x7F) = some (.idle, 0x7F) := by decide
theorem witness_modes :
    (State.resetWith params).mode = .idle ∧ (configuring 0 ⟨0, 0, 0, 0⟩).mode = .receivingConfig ∧
      (receiving params 0 []).mode = .receivingState := by decide
theorem witness_IdleIgnoresOtherBytes :
    (State.resetWith params).mode = .idle ∧ (0x7F#8 ≠ 0x80#8 ∧ 0x7F#8 ≠ 0x81#8) ∧
      (0x83#8 ≠ 0x80#8 ∧ 0x83#8 ≠ 0x81#8) := by decide
/-- The three ranges of `cnt`, at 0, 6 and 7. -/
theorem witness_CfgData :
    (configuring 0 ⟨0, 0, 0, 0⟩).cnt < 7 ∧ (configuring 6 ⟨0, 0, 0, 0⟩).cnt < 7 ∧
      (configuring 7 ⟨0, 0, 0, 0⟩).cnt = 7 ∧ (configuring 7 ⟨0, 0, 0, 0⟩).cnt < 8 := by decide
theorem witness_CfgData_fields :
    (configuring 6 ⟨1, 2, 3, 4⟩).acc.fields[3]? = some 4 ∧ (configuring 6 ⟨1, 2, 3, 4⟩).cnt = 2 * 3 ∧
      (configuring 7 ⟨1, 2, 3, 4⟩).cnt = 2 * 3 + 1 ∧ (configuring 7 ⟨1, 2, 3, 4⟩).cnt ≠ 2 * 0 := by decide
/-- Within the limit, at the last data byte below it; both policies. -/
theorem witness_StateDataWrites (pol : StateCommit) :
    let s := receiving { params with unitLimit := some 1, stateCommit := pol } 1 [0, 0, 0, 0, 0, 0, 0, 0, 0]
    s.latch.length = s.par.nBridges ∧ s.shadow.length = s.par.nBridges ∧
      (∀ limit, s.par.unitLimit = some limit → s.par.stateMap.unit s.cnt < limit) ∧
      s.par.stateCommit = pol := by
  refine ⟨rfl, rfl, ?_, rfl⟩
  rintro limit ⟨⟩
  cases pol <;> decide
/-- The bridge offsets 6, 7 and 8 of a unit, where the even and the odd byte meet. -/
theorem witness_StateDataWrites_offsets :
    flagBit .unit9 0 6 = some 6 ∧ flagBit .unit9 0 7 = none ∧ flagBit .unit9 1 6 = none ∧
      flagBit .unit9 1 7 = some 0 ∧ flagBit .unit9 1 8 = some 1 ∧ flagBit .unit9 1 9 = none ∧
      flagBit .unit9 2 9 = some 0 ∧ flagBit .flat6 1 6 = some 0 ∧ flagBit .flat8 1 7 = none := by decide
/-- Both bytes of unit 0 under the smallest limit that admits it; bits 6 and 7 of the even byte are where
the clauses meet. -/
theorem witness_Unit9 :
    let s := receiving { params with unitLimit := some 1 } (2 * 0) [0, 0, 0, 0, 0, 0, 0, 0, 0]
    s.par.stateMap = .unit9 ∧ s.latch.length = s.par.nBridges ∧ s.shadow.length = s.par.nBridges ∧
      (∀ limit, s.par.unitLimit = some limit → 0 < limit) ∧ s.cnt = 2 * 0 ∧
      { s with cnt := 2 * 0 + 1 }.cnt = 2 * 0 + 1 ∧ (6 = 9 * 0 + 6 ∧ ∀ j, j < 7 → 7 ≠ 9 * 0 + j) := by
  refine ⟨rfl, rfl, rfl, ?_, rfl, rfl, by decide⟩
  rintro limit ⟨⟩
  decide
theorem witness_StateDataPastTheLastBridge :
    let s := receiving { params with unitLimit := some 2 } 2 [1, 1, 1, 1, 1, 1, 1, 1, 1]
    s.par.nBridges ≤ s.par.stateMap.base s.cnt ∧
      (∀ limit, s.par.unitLimit = some limit → s.par.stateMap.unit s.cnt < limit) := by
  refine ⟨by decide, ?_⟩
  rintro limit ⟨⟩
  decide
/-- At the limit itself. -/
theorem witness_StateDataAtTheLimit :
    let s := receiving { params with unitLimit := some 1 } 2 [1, 1, 1, 1, 1, 1, 1, 1, 1]
    s.par.unitLimit = some 1 ∧ 1 ≤ s.par.stateMap.unit s.cnt := by decide
theorem witness_StateEnd :
    (receiving params 0 []).par.stateCommit = .incremental ∧ (receiving params 0 []).mode = .receivingState ∧
      (receiving { params with stateCommit := .atFrameEnd } 0 []).par.stateCommit = .atFrameEnd := by decide
/-- The rows of R124 that ask for more than the mode and the byte. -/
theorem witness_ModeFollowsTheGraph :
    let below := receiving { params with unitLimit := some 1 } 1 []
    let at' := receiving { params with unitLimit := some 1 } 2 []
    0x81#8 ≠ 0x82#8 ∧ below.mode = .receivingState ∧
      (∀ limit, below.par.unitLimit = some limit → below.par.stateMap.unit below.cnt < limit) ∧
      at'.mode = .receivingState ∧
      (∃ limit, at'.par.unitLimit = some limit ∧ limit ≤ at'.par.stateMap.unit at'.cnt) ∧
      encode (.tick 0) = none ∧ ∃ t, exec (.tick 0) below = .next t := by
  refine ⟨by decide, rfl, ?_, rfl, ⟨1, rfl, by decide⟩, rfl, _, rfl⟩
  rintro limit ⟨⟩
  decide
/-- FLAT6, the last bridge in the last data byte. -/
theorem witness_StateFrameLoadsItsVector_flat6 :
    let v := bits [1, 0, 0, 1, 0, 0, 0, 0, 0, 0, 1, 0]
    let s := State.resetWith (regChips 2)
    s.mode = .idle ∧ v.length = s.par.nBridges ∧ s.latch.length = s.par.nBridges ∧
      s.shadow.length = s.par.nBridges ∧
      (∀ i, i < s.par.nBridges → ∃ cnt, cnt < 2 ∧ (flagBit s.par.stateMap cnt i).isSome = true) ∧
      s.par.unitLimit = none ∧ s.par.stateMap ≠ .flat8 := by decide
/-- UNIT9, two data bytes for nine bridges, with the smallest limit that admits them. -/
theorem witness_StateFrameLoadsItsVector :
    let v := bits [1, 0, 1, 0, 0, 0, 0, 1, 0]
    let s := State.resetWith { params with unitLimit := some 1 }
    s.mode = .idle ∧ v.length = s.par.nBridges ∧ s.latch.length = s.par.nBridges ∧
      s.shadow.length = s.par.nBridges ∧
      (∀ i, i < s.par.nBridges → ∃ cnt, cnt < 2 ∧ (flagBit s.par.stateMap cnt i).isSome = true) ∧
      (∀ limit, s.par.unitLimit = some limit → ∀ cnt, cnt < 2 → s.par.stateMap.unit cnt < limit) ∧
      (s.par.stateMap = .flat8 → ∀ cnt, cnt < 2 → stateByte s.par.stateMap v cnt ≠ 0x82#8) := by
  refine ⟨rfl, rfl, rfl, rfl, by decide, ?_, nofun⟩
  rintro limit ⟨⟩
  decide
/-- FLAT8, where the last clause bites. -/
theorem witness_StateFrameLoadsItsVector_flat8 :
    let v := bits [1, 1, 1, 1, 1, 1, 1, 1, 1]
    let s := State.resetWith { params with stateMap := .flat8 }
    v.length = s.par.nBridges ∧
      (∀ i, i < s.par.nBridges → ∃ cnt, cnt < 2 ∧ (flagBit s.par.stateMap cnt i).isSome = true) ∧
      (∀ cnt, cnt < 2 → stateByte s.par.stateMap v cnt ≠ 0x82#8) := by decide
/-- Positive period; the positions where the four ranges meet are in `test_phaseOf_positions`. -/
theorem witness_PhaseIsRangeMembership :
    let c := (running params ⟨3, 2, 4, 1⟩ none).cfg
    0 < c.up.toNat + c.inter.toNat + c.down.toNat + c.pause.toNat := by decide
theorem witness_ZeroPeriod : (State.resetWith params).cfg = ⟨0, 0, 0, 0⟩ := rfl
/-- The last period below the wrap. -/
theorem witness_PhasesPartitionThePeriod :
    0 < period ⟨3, 2, 4, 1⟩ ∧ (2 ^ 32 - 10) + period ⟨3, 2, 4, 1⟩ ≤ 2 ^ params.timeWidth := by decide
theorem witness_ZeroDurationPhaseIsSkipped :
    0 < period ⟨1000, 0, 1000, 0⟩ ∧ 0 < period ⟨0, 5, 0, 5⟩ := by decide
/-- T9: a pulse exactly MIN_PULSE long is not short. -/
theorem witness_TickEmitsExactlyWhenDue :
    let s := running { params with minPulse := 10 } ⟨10, 0, 10, 0⟩ none
    phaseOf s.par s.cfg 3 = .pulseForward ∧ ¬ ShortPulse s .pulseForward ∧ s.last ≠ some .pulseForward := by
  refine ⟨by decide, ?_, nofun⟩
  rintro ⟨-, ⟨-, h⟩ | ⟨h, -⟩⟩
  · revert h
    decide
  · cases h
/-- T3: nothing is due. -/
theorem witness_TickNotDue :
    let s := running params ⟨1000, 0, 1000, 0⟩ (some .pulseForward)
    phaseOf s.par s.cfg 999 = .pulseForward ∧ ¬ ShortPulse s .pulseForward ∧ s.par.emitPolicy = .edge ∧
      s.last = some .pulseForward := by
  refine ⟨by decide, ?_, rfl, rfl⟩
  rintro ⟨h, -⟩
  revert h
  decide
/-- A pulse one unit short, in each direction. -/
theorem witness_ShortPulseIsSuppressed :
    ShortPulse (running { params with minPulse := 10 } ⟨9, 0, 10, 0⟩ none)
      (phaseOf params ⟨9, 0, 10, 0⟩ 0) ∧
    ShortPulse (running { params with minPulse := 10 } ⟨10, 0, 9, 0⟩ none)
      (phaseOf params ⟨10, 0, 9, 0⟩ 10) := by
  refine ⟨⟨by decide, .inl ⟨by decide, by decide⟩⟩, ⟨by decide, .inr ⟨by decide, by decide⟩⟩⟩
theorem witness_RepeatedTick (pol : EmitPolicy) :
    let s := running { params with emitPolicy := pol } ⟨1000, 0, 1000, 0⟩ none
    phaseOf s.par s.cfg 1 = phaseOf s.par s.cfg 0 ∧ s.par.emitPolicy = pol ∧
      ∃ t, exec (.tick 0) s = .next t :=
  ⟨by cases pol <;> decide, rfl, _, rfl⟩
theorem witness_NewConfiguration :
    (configuring 7 ⟨2, 3, 2, 3⟩).mode = .receivingConfig ∧ (configuring 7 ⟨2, 3, 2, 3⟩).cnt = 7 := by decide
theorem witness_AllZeroConfiguration :
    let s := { configuring 7 ⟨0, 0, 0, 0⟩ with last := some .pulseForward }
    s.mode = .receivingConfig ∧ s.cnt = 7 ∧ s.acc = ⟨0, 0, 0, 0⟩ ∧ s.last ≠ some .idleAfterReverse := by decide
theorem witness_LastIsThePhaseLastEmitted :
    ∃ t, exec (.feed 0x80) (State.resetWith params) = .next t ∧ (∀ now, Instr.feed 0x80 ≠ .tick now) ∧
      (∀ inp now, Instr.feed 0x80 ≠ .step inp now) := ⟨_, rfl, nofun, nofun⟩
/-- Both values of a bridge, at the last index. -/
theorem witness_Target :
    (2 < (boards 1).nBridges ∧ (loaded (boards 1) [1, 0, 1]).latch[2]? = some true) ∧
      (1 < (boards 1).nBridges ∧ (loaded (boards 1) [1, 0, 1]).latch[1]? = some false) := by decide
theorem witness_OffBridges :
    (params.layout.ofBridge 0 ++ params.layout.ofBridge 1 ++ params.layout.ofBridge 2).Nodup := by decide
theorem witness_OutputLines :
    (∃ t, exec (.feed 0x80) (State.resetWith params) = .next t) ∧ (∀ ph, Instr.feed 0x80 ≠ .emit ph) ∧
      (∀ k v, Instr.feed 0x80 ≠ .emitDirectBoard k v) ∧ (∀ k v, Instr.feed 0x80 ≠ .emitRegaddrBoard k v) ∧
      (∀ now, Instr.feed 0x80 ≠ .tick now) ∧ (∀ inp now, Instr.feed 0x80 ≠ .step inp now) :=
  ⟨⟨_, rfl⟩, nofun, nofun, nofun, nofun, nofun⟩
theorem witness_DirectWord :
    (State.resetWith params).par.layout = DirectLayout.table ∧ (State.resetWith params).par.dirFwd = 0b10#2 ∧
      (State.resetWith params).par.dirRev = 0b01#2 := by decide
/-- The last board, with a target vector exactly long enough. -/
theorem witness_DirectBoard :
    let s := State.resetWith (boards 2)
    1 < s.par.nBoards ∧ 3 * (1 * s.par.chipsPerBoard + s.par.chipsPerBoard) ≤
      [BridgeState.off, .off, .off, .off, .off, .off].length := by decide
theorem witness_RegaddrBoard :
    let s := State.resetWith (regChips 1)
    0 < s.par.nBoards ∧ 6 * (0 * s.par.chipsPerBoard + s.par.chipsPerBoard) ≤
      [BridgeState.off, .off, .off, .off, .off, .off].length := by decide
/-- One board too many; one element too few. -/
theorem witness_BoardEmittersStop :
    (State.resetWith (boards 2)).par.nBoards ≤ 2 ∧ 1 < (State.resetWith (boards 2)).par.nBoards ∧
      (List.replicate 5 BridgeState.off).length <
        3 * (1 * (State.resetWith (boards 2)).par.chipsPerBoard + (State.resetWith (boards 2)).par.chipsPerBoard) ∧
      (List.replicate 5 BridgeState.off).length <
        6 * (0 * (State.resetWith (regChips 1)).par.chipsPerBoard +
          (State.resetWith (regChips 1)).par.chipsPerBoard) := by decide
theorem test_board_emitters_stop :
    faultOf (exec (.emitDirectBoard 2 []) (State.resetWith (boards 2))) = some .noSuchBoard ∧
      faultOf (exec (.emitDirectBoard 1 (List.replicate 5 .off)) (State.resetWith (boards 2))) =
        some .noSuchBridge := by decide
theorem witness_encodings :
    1 ≤ (State.resetWith (boards 2)).par.nBoards ∧ (State.resetWith (boards 2)).par.encoding = .direct ∧
      1 ≤ (State.resetWith (regChips 1)).par.nBoards ∧
      (State.resetWith (regChips 1)).par.encoding = .regaddr := by decide
theorem witness_EmitBytes :
    (loaded params [1, 0, 0, 0, 0, 0, 0, 0, 0]).par = params ∧
      (loaded params [1, 0, 0, 0, 0, 0, 0, 0, 0]).latch = bits [1, 0, 0, 0, 0, 0, 0, 0, 0] := ⟨rfl, rfl⟩
theorem witness_PulseFrames :
    let s := loaded (boards 2) [1, 0, 0, 1, 0, 1]
    let s' := { s with mode := .receivingState, cnt := 1 }
    s.par = s'.par ∧ s.par.layout = DirectLayout.table ∧ s.par.nibFwd ≠ 0b0000#4 ∧ s.par.nibRev ≠ 0b0000#4 ∧
      s.latch.length = s.par.nBridges ∧ s'.latch.length = s.par.nBridges ∧ s.trace = s'.trace ∧
      ∃ t t', exec (.emit .pulseForward) s = .next t ∧ exec (.emit .pulseForward) s' = .next t' ∧
        t.trace = t'.trace :=
  ⟨rfl, rfl, by decide, by decide, rfl, rfl, rfl, _, _, rfl, rfl, rfl⟩
/-- REGADDR, in reverse. -/
theorem witness_PulseFrames_regaddr :
    let s := loaded (regChips 1) [1, 1, 0, 0, 0, 1]
    let s' := { s with cnt := 3 }
    s.par = s'.par ∧ s.par.layout = DirectLayout.table ∧ s.par.nibFwd ≠ 0b0000#4 ∧ s.par.nibRev ≠ 0b0000#4 ∧
      s.latch.length = s.par.nBridges ∧ s'.latch.length = s.par.nBridges ∧ s.trace = s'.trace ∧
      ∃ t t', exec (.emit .pulseReverse) s = .next t ∧ exec (.emit .pulseReverse) s' = .next t' ∧
        t.trace = t'.trace :=
  ⟨rfl, rfl, by decide, by decide, rfl, rfl, rfl, _, _, rfl, rfl, rfl⟩
/-- Different latches give different frames: the two chains of E1 and E2. -/
theorem test_pulse_frames_differ :
    after (exec (.emit .pulseForward) (loaded params [1, 0, 0, 0, 0, 0, 0, 0, 0])) (fun t => t.trace) ≠
      after (exec (.emit .pulseForward) (loaded params [0, 0, 0, 0, 0, 0, 0, 0, 1])) (fun t => t.trace) := by
  decide
theorem witness_SchedulerAndPacker :
    let s := State.resetWith params
    (∃ t, exec (.phaseOf 0) s = .next t) ∧ (∃ t, exec (.tick 0) s = .next t) ∧
      (∃ t, exec (.target .pulseForward) s = .next t) ∧ (∃ t, exec (.emit .pulseForward) s = .next t) ∧
      (∃ t, exec (.word .off .off .off) s = .next t) ∧
      (∃ t, exec (.emitDirectBoard 0 (List.replicate 9 .off)) s = .next t) ∧
      (∃ t, exec (.dataByte .off .off) s = .next t) :=
  ⟨⟨_, rfl⟩, ⟨_, rfl⟩, ⟨_, rfl⟩, ⟨_, rfl⟩, ⟨_, rfl⟩, ⟨_, rfl⟩, ⟨_, rfl⟩⟩
theorem witness_SchedulerAndPacker_regaddr :
    ∃ t, exec (.emitRegaddrBoard 0 (List.replicate 6 .off)) (State.resetWith (regChips 1)) = .next t :=
  ⟨_, rfl⟩
theorem witness_MachineStep :
    (pushInput ⟨some 0x80, 7⟩ (State.resetWith params)).env = [⟨some 0x80, 7⟩] ∧
      (pushInput ⟨none, 7⟩ (State.resetWith params)).env = [⟨none, 7⟩] ∧
      (State.resetWith params).env = [] := ⟨rfl, rfl, rfl⟩
/-- Two words placed in turn read two draws (log entry 21). -/
theorem test_placed_readings_are_separate_draws :
    (((State.resetWith params).withFetchWord 8 0x80).withFetchWord 8 0x81).env.map (fun e => e.now) =
      [Config.freeNow 1, Config.freeNow 0] := rfl
theorem witness_PlacedTableWord : decodeTableWord 8 0x81 = some .stateBegin := by decide
theorem witness_ParametersStay :
    (∃ t, exec (.step (some 0x80) 0) (State.resetWith params) = .next t) ∧
      ∃ t, step (State.resetWith params) = .next t := ⟨⟨_, rfl⟩, ⟨_, rfl⟩⟩
/-- With and without the sentinel of a state frame. -/
theorem witness_AtFrameEnd :
    let s := receiving { params with stateCommit := .atFrameEnd } 1 [0, 0, 0, 0, 0, 0, 0, 0, 0]
    s.par.stateCommit = .atFrameEnd ∧ (s.mode = .receivingState ∧ some 0x82#8 = some 0x82#8) ∧
      ¬ (s.mode = .receivingState ∧ some 0x81#8 = some 0x82#8) := by decide
theorem witness_IncrementalHasNoShadow : (State.resetWith params).par.stateCommit = .incremental := rfl
theorem witness_TickDoesNotSee : ∃ t, exec (.step none 0) (State.resetWith params) = .next t := ⟨_, rfl⟩
/-- Each of the two conditions without the other. -/
theorem witness_NothingIsDriven :
    (∀ i, (State.resetWith params).latch.getD i false = false) ∧
      (running params ⟨0, 5, 0, 5⟩ none).cfg.up = 0 ∧ (running params ⟨0, 5, 0, 5⟩ none).cfg.down = 0 := by
  refine ⟨fun i => ?_, rfl, rfl⟩
  simp [List.getD_eq_getElem?_getD, List.getElem?_replicate]
  split <;> rfl
theorem witness_Invariant :
    (State.resetWith params).Inv ∧ ∃ t, step (State.resetWith params) = .next t :=
  ⟨⟨rfl, rfl, rfl, rfl, nofun, rfl⟩, _, rfl⟩

end Sys2Proof.Tests
end

/-! SUPPORT. What any operation can do to `last`, the select lines and the enable line (10_state.md R29,
R32): one case split over the operations, and the two statements that follow from it. -/

namespace Sys2Proof.Machine

/-- The three operations that send frames and do nothing else (R161, R163, R170). -/
def Emitter (i : Instr) : Prop :=
  (∃ ph, i = .emit ph) ∨ (∃ board v, i = .emitDirectBoard board v) ∨ ∃ board v, i = .emitRegaddrBoard board v

/-- What an operation that only sends frames may change: select lines, the trace by appending, and the
result port. -/
def SendsOnly (s t : State) : Prop :=
  ∃ sel es, t = { s with sel := sel, trace := s.trace ++ es, ret := .unit }

theorem emit_sendsOnly (ph : Phase) (s : State) : SendsOnly s (emit ph s) := ⟨_, _, emit_eq ph s⟩

theorem emitDirectBoard_sendsOnly (board : Nat) (v : List BridgeState) (s : State) :
    SendsOnly s (emitDirectBoard board v s) := ⟨_, _, emitDirectBoard_eq board v s⟩

theorem emitRegaddrBoard_sendsOnly (board : Nat) (v : List BridgeState) (s : State) :
    SendsOnly s (emitRegaddrBoard board v s) := ⟨_, _, emitRegaddrBoard_eq board v s⟩

theorem SendsOnly.last_eq {s t : State} (h : SendsOnly s t) : t.last = s.last := by
  obtain ⟨_, _, rfl⟩ := h
  rfl

theorem SendsOnly.en_eq {s t : State} (h : SendsOnly s t) : t.en = s.en := by
  obtain ⟨_, _, rfl⟩ := h
  rfl

/-- A per-board emitter that does not stop has run. -/
theorem onBoard_next {perChip board : Nat} {v : List BridgeState} {s t : State} {f : State → State}
    (h : onBoard perChip board v s f = .next t) : t = f s := by
  unfold onBoard at h
  split at h
  · cases h
  · split at h
    · cases h
    · exact (Host.Outcome.next.inj h).symm

/-- Leaving a value in the result port is within FEED's frame. -/
theorem returning_frame (r : Ret) (s : State) : FeedFrame s (returning r s) :=
  ⟨rfl, rfl, rfl, rfl, rfl, rfl, .inl rfl⟩

theorem applyEvent_frame (ev : DecoderEvent) (s : State) : FeedFrame s (applyEvent ev s) := by
  cases ev <;> exact ⟨rfl, rfl, rfl, rfl, rfl, rfl, .inl rfl⟩

/-- All an operation that answers a next state can do to the outputs and to `last`: nothing beyond FEED's
frame, unless it is an emitter, which only sends frames, or TICK, or STEP, which ends in TICK. -/
theorem exec_cases {i : Instr} {s t : State} (h : exec i s = .next t) :
    FeedFrame s t ∨
    (Emitter i ∧ SendsOnly s t) ∨
    (∃ now, i = .tick now ∧ t = tick now s) ∨
    (∃ inp now, i = .step inp now ∧ t = tick now (serveInput inp s)) := by
  cases i with
  | emitDirectBoard board v =>
    have ht := onBoard_next h
    exact .inr (.inl ⟨.inr (.inl ⟨_, _, rfl⟩), ht ▸ emitDirectBoard_sendsOnly board v s⟩)
  | emitRegaddrBoard board v =>
    have ht := onBoard_next h
    exact .inr (.inl ⟨.inr (.inr ⟨_, _, rfl⟩), ht ▸ emitRegaddrBoard_sendsOnly board v s⟩)
  | cfgBegin => cases h; exact .inl (cfgBegin_frame s)
  | stateBegin => cases h; exact .inl (stateBegin_frame s)
  | idleIgnore b => cases h; exact .inl (idleIgnore_frame b s)
  | cfgData b => cases h; exact .inl (cfgData_frame b s)
  | stateEnd => cases h; exact .inl (stateEnd_frame s)
  | stateData b => cases h; exact .inl (stateData_frame b s)
  | feed b => cases h; exact .inl (feed_frame b s)
  | phaseOf now => cases h; exact .inl (returning_frame _ s)
  | target ph => cases h; exact .inl (returning_frame _ s)
  | word t0 t1 t2 => cases h; exact .inl (returning_frame _ s)
  | dataByte te tOdd => cases h; exact .inl (returning_frame _ s)
  | apply ev => cases h; exact .inl (applyEvent_frame ev s)
  | emit ph => cases h; exact .inr (.inl ⟨.inl ⟨_, rfl⟩, emit_sendsOnly ph s⟩)
  | tick now => cases h; exact .inr (.inr (.inl ⟨_, rfl, rfl⟩))
  | step inp now => cases h; exact .inr (.inr (.inr ⟨_, _, rfl, rfl⟩))

/-- TICK leaves `last`, the trace and the select lines alone, or takes the last two from one EMIT and
records its phase (R29, R32, R143). -/
theorem tick_idle_or_emits (now : Nat) (s : State) :
    ((tick now s).last = s.last ∧ (tick now s).trace = s.trace ∧ (tick now s).sel = s.sel) ∨
    ∃ ph, (tick now s).last = some ph ∧ (tick now s).trace = (emit ph s).trace ∧
      (tick now s).sel = (emit ph s).sel := by
  obtain ⟨-, h⟩ | ⟨-, -, h⟩ | ⟨-, -, h⟩ := tick_cases now s
  · exact .inl (by simp [h])
  · exact .inr ⟨_, by rw [h], by rw [h], by rw [h]⟩
  · exact .inl (by simp [h])

@[simp] theorem tick_en (now : Nat) (s : State) : (tick now s).en = s.en := by
  obtain ⟨_, _, _, h, -⟩ := tick_eq now s
  rw [h]

/-- No operation changes the enable line (R32). -/
theorem exec_en {i : Instr} {s t : State} (h : exec i s = .next t) : t.en = s.en := by
  obtain hf | ⟨-, hs⟩ | ⟨now, -, rfl⟩ | ⟨inp, now, -, rfl⟩ := exec_cases h
  · exact hf.en
  · exact hs.en_eq
  · exact tick_en now s
  · rw [tick_en, (serveInput_frame inp s).en]

/-- After EMIT every select line of a board reads deasserted (R32, R165). -/
theorem emit_sel_getD (ph : Phase) (s : State) {k : Nat} (hk : k < s.par.nBoards) :
    (emit ph s).sel.getD k false = false := by
  have hmem : k ∈ List.range s.par.nBoards := List.mem_range.mpr hk
  rw [emit_eq, List.getD_eq_getElem?_getD, deassertAll_getElem?, if_pos hmem]
  cases s.sel[k]? <;> rfl

/-- Settles O26: of the cases of `exec_cases` only TICK and STEP may write `last`, and TICK writes the
phase of its EMIT. -/
theorem lastIsThePhaseLastEmitted : Obligations.LastIsThePhaseLastEmitted := by
  refine ⟨fun i s t h notTick notStep => ?_, fun now s => ⟨tick now s, rfl, ?_⟩, fun _ => rfl⟩
  · obtain hf | ⟨-, hs⟩ | ⟨now, hi, -⟩ | ⟨inp, now, hi, -⟩ := exec_cases h
    · exact hf.last
    · exact hs.last_eq
    · exact absurd hi (notTick now)
    · exact absurd hi (notStep inp now)
  · obtain ⟨hlast, htrace, -⟩ | ⟨ph, hlast, htrace, -⟩ := tick_idle_or_emits now s
    · exact .inl ⟨hlast, htrace⟩
    · exact .inr ⟨ph, emit ph s, hlast, rfl, htrace⟩

/-- Settles O48: of the cases of `exec_cases` only the emitters, TICK and STEP may change a select line;
EMIT deasserts the line of every board, and no case changes the enable line. -/
theorem outputLinesChangeOnlyInEmit : Obligations.OutputLinesChangeOnlyInEmit := by
  refine ⟨fun i s t h notEmit notDirect notRegaddr notTick notStep => ?_,
    fun now s => ⟨tick now s, rfl, ?_⟩, fun ph s => ⟨emit ph s, rfl, fun k => emit_sel_getD ph s⟩,
    fun _ => rfl, fun i s t => exec_en⟩
  · obtain hf | ⟨⟨ph, hi⟩ | ⟨board, v, hi⟩ | ⟨board, v, hi⟩, -⟩ | ⟨now, hi, -⟩ | ⟨inp, now, hi, -⟩ :=
      exec_cases h
    · exact hf.sel
    · exact absurd hi (notEmit ph)
    · exact absurd hi (notDirect board v)
    · exact absurd hi (notRegaddr board v)
    · exact absurd hi (notTick now)
    · exact absurd hi (notStep inp now)
  · obtain ⟨-, -, hsel⟩ | ⟨ph, -, -, hsel⟩ := tick_idle_or_emits now s
    · exact .inl hsel
    · exact .inr ⟨ph, emit ph s, rfl, hsel⟩

end Sys2Proof.Machine

/-! SUPPORT. Loading a configuration frame (30_encoding.md R84, 40_frame_decoder.md R110, R114): the state in
the middle of the frame, and what each pair of its bytes does. -/

namespace Sys2Proof

/-- The two bytes of a duration, low byte first, replace the whole field (R53, R84). -/
theorem TimingConfig.setByte_pair (c : TimingConfig) (f : Nat) (w : Word) :
    (c.setByte (2 * f) (loByte w)).setByte (2 * f + 1) (hiByte w) = c.modifyField f fun _ => w := by
  have hw (v : Word) : setHiByte (setLoByte v (loByte w)) (hiByte w) = w := word_ext (by simp) (by simp)
  have hlo : 2 * f / 2 = f := by omega
  have hhi : (2 * f + 1) / 2 = f := by omega
  have hodd : (2 * f + 1) % 2 ≠ 0 := by omega
  simp only [setByte, hlo, hhi, hodd, Nat.mul_mod_right, if_true, if_false]
  match f with
  | 0 | 1 | 2 | 3 => simp only [modifyField, hw]
  | _ + 4 => rfl

namespace Machine

/-- `s` in the middle of a configuration frame: `n` data bytes taken, `a` accumulated (R27, R31). -/
def loadingConfig (s : State) (a : TimingConfig) (n : Nat) : State :=
  { s with mode := .receivingConfig, acc := a, cnt := n, ret := .event .none }

/-- `s` once a configuration frame with the durations `c` has been taken (R114). -/
def configLoaded (s : State) (c : TimingConfig) : State :=
  { s with cfg := c, acc := c, cnt := 8, mode := .idle, ret := .event (.configReady c) }

/-- In IDLE the byte 0x80 opens a configuration frame (R82, R110). -/
theorem feed_opens_config {s : State} (h : s.mode = .idle) :
    feed 0x80#8 s = loadingConfig s TimingConfig.zero 0 := by
  simp [feed, selectRow, h, cfgBegin, returning, loadingConfig]

theorem feed_loadingConfig (s : State) (a : TimingConfig) (n : Nat) (b : Byte) :
    feed b (loadingConfig s a n) = cfgData b (loadingConfig s a n) := rfl

theorem feed_loadingConfig_of_lt {n : Nat} (h : n < 7) (s : State) (a : TimingConfig) (b : Byte) :
    feed b (loadingConfig s a n) = loadingConfig s (a.setByte n b) (n + 1) := by
  rw [feed_loadingConfig, cfgData_eq_of_lt h]
  rfl

theorem feed_loadingConfig_seven (s : State) (a : TimingConfig) (b : Byte) :
    feed b (loadingConfig s a 7) = configLoaded s (a.setByte 7 b) := by
  rw [feed_loadingConfig, cfgData_eq_of_eq rfl]
  rfl

/-- The two bytes of a duration before the last load its field (R84). -/
theorem feed_field_loads {f : Nat} (h : f < 3) (s : State) (a : TimingConfig) (w : Word) :
    feed (hiByte w) (feed (loByte w) (loadingConfig s a (2 * f))) =
      loadingConfig s (a.modifyField f fun _ => w) (2 * (f + 1)) := by
  rw [feed_loadingConfig_of_lt (by omega), feed_loadingConfig_of_lt (by omega),
    TimingConfig.setByte_pair]
  rfl

/-- The two bytes of the last duration load its field and end the frame (R84, R114). -/
theorem feed_last_field_completes (s : State) (a : TimingConfig) (w : Word) :
    feed (hiByte w) (feed (loByte w) (loadingConfig s a (2 * 3))) =
      configLoaded s (a.modifyField 3 fun _ => w) := by
  rw [feed_loadingConfig_of_lt (by omega), feed_loadingConfig_seven, ← TimingConfig.setByte_pair]

/-- Settles O9: the byte 0x80 clears the accumulator, then each pair of bytes loads the next of its four
fields, the last pair latching them all. -/
theorem configurationFrameLoadsItsDurations : Obligations.ConfigurationFrameLoadsItsDurations := by
  intro c s idle
  rw [feedList_eq]
  apply congrArg Host.Outcome.next
  calc (cfgFrame c).foldl (fun s b => feed b s) s
    _ = feed (hiByte c.pause) (feed (loByte c.pause) (feed (hiByte c.down) (feed (loByte c.down)
          (feed (hiByte c.inter) (feed (loByte c.inter) (feed (hiByte c.up) (feed (loByte c.up)
            (loadingConfig s TimingConfig.zero (2 * 0))))))))) := by rw [← feed_opens_config idle]; rfl
    _ = configLoaded s c := by
      rw [feed_field_loads (by decide), feed_field_loads (by decide), feed_field_loads (by decide),
        feed_last_field_completes]
      rfl

end Machine

end Sys2Proof

/-! SUPPORT. The decode table (30_encoding.md R82), the bridges that a state data byte covers (R86, R119) and
the bits that an OFF bridge contributes (R97). -/

namespace Sys2Proof

/-- Settles O1: each row of the table of R82 is one branch of `decode`. -/
theorem decodeTableSelectsOneOperation : Obligations.DecodeTableSelectsOneOperation :=
  ⟨rfl, rfl, fun _ h80 h81 => (if_neg h80).trans (if_neg h81), fun _ => rfl, rfl, fun _ h82 => if_neg h82⟩

/-! ### The two data bytes of a UNIT9 unit -/

section UnitNine
variable (u : Nat)

@[simp] theorem StateMap.unit_unit9_even : StateMap.unit9.unit (2 * u) = u := by
  simp [unit]

@[simp] theorem StateMap.unit_unit9_odd : StateMap.unit9.unit (2 * u + 1) = u := by
  simp only [unit]
  omega

@[simp] theorem StateMap.base_unit9_even : StateMap.unit9.base (2 * u) = 9 * u := by
  simp [base]

@[simp] theorem StateMap.base_unit9_odd : StateMap.unit9.base (2 * u + 1) = 9 * u + 7 := by
  have hu : (2 * u + 1) / 2 = u := by omega
  simp [base, hu]

@[simp] theorem StateMap.width_unit9_even : StateMap.unit9.width (2 * u) = 7 := by
  simp [width]

@[simp] theorem StateMap.width_unit9_odd : StateMap.unit9.width (2 * u + 1) = 2 := by
  simp [width]

end UnitNine

namespace Machine

/-- Below the unit limit a state data byte is accepted (R119). -/
theorem stateData_of_below_limit {s : State}
    (h : ∀ limit, s.par.unitLimit = some limit → s.par.stateMap.unit s.cnt < limit) (b : Byte) :
    stateData b s = acceptStateByte b s := by
  rw [stateData, overLimit_false.mpr h]
  rfl

/-- The vector a state frame writes has the common length of `D` and `S` (R30). -/
theorem frameVector_length {s : State} {n : Nat} (hlatch : s.latch.length = n)
    (hshadow : s.shadow.length = n) : (frameVector s).length = n := by
  cases h : s.par.stateCommit <;> simp [frameVector, byCommit, h, hlatch, hshadow]

/-- Bridge `i` after a data byte below the limit: bit `j` of the byte where `i` is bridge `base + j` of the
range the byte covers, its old value outside that range (R119). -/
theorem stateData_bridge {s : State} {i : Nat}
    (hlimit : ∀ limit, s.par.unitLimit = some limit → s.par.stateMap.unit s.cnt < limit)
    (hlen : (frameVector s).length = s.par.nBridges) (hi : i < s.par.nBridges) (b : Byte) :
    (∀ j, j < s.par.stateMap.width s.cnt → i = s.par.stateMap.base s.cnt + j →
      (frameVector (stateData b s))[i]? = some (b.getLsbD j)) ∧
    ((∀ j, j < s.par.stateMap.width s.cnt → i ≠ s.par.stateMap.base s.cnt + j) →
      (frameVector (stateData b s))[i]? = (frameVector s)[i]?) := by
  rw [stateData_of_below_limit hlimit, acceptStateByte_vector, writeFlags_getElem?]
  constructor
  · rintro j hj rfl
    rw [if_pos (by omega), List.getElem?_eq_getElem (hlen ▸ hi)]
    simp
  · intro outside
    have hrange : ¬(s.par.stateMap.base s.cnt ≤ i ∧
        i < s.par.stateMap.base s.cnt + s.par.stateMap.width s.cnt ∧ i < s.par.nBridges) :=
      fun ⟨hlo, hup, _⟩ => outside (i - s.par.stateMap.base s.cnt) (by omega) (by omega)
    rw [if_neg hrange]

/-- Settles O11: both bytes of unit `u` are below the limit, and `stateData_bridge` gives each bridge from
their bases 9u and 9u + 7 and their widths 7 and 2. -/
theorem unit9BytesMapToBridges : Obligations.Unit9BytesMapToBridges := by
  intro b u s hmap hlatch hshadow hlimit
  have hlen := frameVector_length hlatch hshadow
  refine ⟨fun even => ⟨_, exec_stateData b s, fun i hi => ?_⟩,
    fun odd => ⟨_, exec_stateData b s, fun i hi => ?_⟩⟩
  · simpa [hmap, even] using stateData_bridge (by simpa [hmap, even] using hlimit) hlen hi b
  · simpa [hmap, odd] using stateData_bridge (by simpa [hmap, odd] using hlimit) hlen hi b

/-! ### OFF bridges -/

theorem bitAt_getLsbD_of_ne {i j : Fin 16} (h : j ≠ i) (on : Bool) : (bitAt i on).getLsbD j = false := by
  have hij : (j : Nat) ≠ i := fun hv => h (Fin.ext hv)
  cases on
  · simp [bitAt]
  · simp [bitAt]
    omega

theorem contribution_off (p : Params) (k : Fin 3) : contribution p k .off = 0#16 := by
  simp [contribution, dirCode, bitAt]

/-- A bridge contributes to its own four positions only (R91). -/
theorem contribution_getLsbD_of_not_mem {p : Params} {k : Fin 3} {i : Fin 16}
    (h : i ∉ p.layout.ofBridge k) (t : BridgeState) : (contribution p k t).getLsbD i = false := by
  simp only [DirectLayout.ofBridge, List.mem_cons, List.not_mem_nil, or_false, not_or] at h
  obtain ⟨henHi, henLo, hdirHi, hdirLo⟩ := h
  simp only [contribution, BitVec.getLsbD_or, bitAt_getLsbD_of_ne henHi, bitAt_getLsbD_of_ne henLo,
    bitAt_getLsbD_of_ne hdirHi, bitAt_getLsbD_of_ne hdirLo, Bool.or_false]

theorem contribution_getLsbD_of_off_at {p : Params} {k : Fin 3} {t : BridgeState} {i : Fin 16}
    (h : i ∈ p.layout.ofBridge k → t = .off) : (contribution p k t).getLsbD i = false := by
  by_cases hi : i ∈ p.layout.ofBridge k
  · rw [h hi, contribution_off, BitVec.getLsbD_zero]
  · exact contribution_getLsbD_of_not_mem hi t

/-- A bit of the word is zero when every bridge that has it among its positions is OFF (R97, R162). -/
theorem directWord_getLsbD_of_off_at {p : Params} {t0 t1 t2 : BridgeState} {i : Fin 16}
    (h0 : i ∈ p.layout.ofBridge 0 → t0 = .off) (h1 : i ∈ p.layout.ofBridge 1 → t1 = .off)
    (h2 : i ∈ p.layout.ofBridge 2 → t2 = .off) : (directWord p t0 t1 t2).getLsbD i = false := by
  simp only [directWord, BitVec.getLsbD_or, contribution_getLsbD_of_off_at h0,
    contribution_getLsbD_of_off_at h1, contribution_getLsbD_of_off_at h2, Bool.or_false]

/-- Settles O30: with distinct positions no other bridge reaches an OFF bridge's positions; in REGADDR each
bridge has a nibble of its own. -/
theorem offBridgesContributeZeroBits : Obligations.OffBridgesContributeZeroBits := by
  constructor
  · intro t0 t1 t2 s distinct
    obtain ⟨distinct01, -, d2⟩ := List.nodup_append'.mp distinct
    obtain ⟨-, -, d01⟩ := List.nodup_append'.mp distinct01
    obtain ⟨d02, d12⟩ := List.disjoint_append_left.mp d2
    refine ⟨_, exec_word t0 t1 t2 s, fun off i hi => ?_, fun off i hi => ?_, fun off i hi => ?_⟩
    · exact directWord_getLsbD_of_off_at (fun _ => off) (fun h1 => (d01 hi h1).elim)
        (fun h2 => (d02 hi h2).elim)
    · exact directWord_getLsbD_of_off_at (fun h0 => (d01 h0 hi).elim) (fun _ => off)
        (fun h2 => (d12 hi h2).elim)
    · exact directWord_getLsbD_of_off_at (fun h0 => (d02 h0 hi).elim) (fun h1 => (d12 h1 hi).elim)
        (fun _ => off)
  · intro te tOdd s
    obtain ⟨hlow, hhigh⟩ := extract_joinNibbles (nibble s.par tOdd) (nibble s.par te)
    refine ⟨_, exec_dataByte te tOdd s, fun off => ?_, fun off => ?_⟩
    · exact hlow.trans (by rw [off]; rfl)
    · exact hhigh.trans (by rw [off]; rfl)

end Machine

end Sys2Proof

/-! SUPPORT. Each row of the decode table as an equation of FEED (30_encoding.md R82, 40_frame_decoder.md R113),
and the outputs and `last`, which no row reads. -/

namespace Sys2Proof

/-- A function of the selected alternative selects among its values. -/
theorem map_selectRow {α β : Type} (f : α → β) (m : Mode) (b : Byte) (cb sb : α) (ii cd : Byte → α)
    (se : α) (sd : Byte → α) :
    f (selectRow m b cb sb ii cd se sd) =
      selectRow m b (f cb) (f sb) (fun c => f (ii c)) (fun c => f (cd c)) (f se) (fun c => f (sd c)) := by
  cases m with
  | idle => simp only [selectRow, apply_ite f]
  | receivingConfig => rfl
  | receivingState => exact apply_ite f ..

namespace Machine

section Rows
variable {s : State} {b : Byte}

theorem feed_cfgBegin (h : s.mode = .idle) : feed 0x80#8 s = cfgBegin s := by
  rw [feed, h]
  rfl

theorem feed_stateBegin (h : s.mode = .idle) : feed 0x81#8 s = stateBegin s := by
  rw [feed, h]
  rfl

theorem feed_idleIgnore (h : s.mode = .idle) (h80 : b ≠ 0x80#8) (h81 : b ≠ 0x81#8) :
    feed b s = idleIgnore b s := by
  rw [feed, h]
  exact (if_neg h80).trans (if_neg h81)

theorem feed_cfgData (h : s.mode = .receivingConfig) : feed b s = cfgData b s := by
  rw [feed, h]
  rfl

theorem feed_stateEnd (h : s.mode = .receivingState) : feed 0x82#8 s = stateEnd s := by
  rw [feed, h]
  rfl

theorem feed_stateData (h : s.mode = .receivingState) (h82 : b ≠ 0x82#8) : feed b s = stateData b s := by
  rw [feed, h]
  exact if_neg h82

end Rows

section Outputs
variable (last : Option Phase) (sel : List Bool) (en : Bool)

/-- `s` with other outputs and another `last`: the registers that FEED neither reads nor writes (R113). -/
def State.withOutputs (s : State) : State := { s with last := last, sel := sel, en := en }

theorem cfgData_withOutputs (b : Byte) (s : State) :
    cfgData b (s.withOutputs last sel en) = (cfgData b s).withOutputs last sel en := by
  simp only [cfgData, apply_ite (State.withOutputs last sel en)]
  rfl

theorem stateData_withOutputs (b : Byte) (s : State) :
    stateData b (s.withOutputs last sel en) = (stateData b s).withOutputs last sel en := by
  simp only [stateData, apply_ite (State.withOutputs last sel en)]
  rfl

/-- FEED commutes with any change of the outputs and of `last`, because each of the six operations does. -/
theorem feed_withOutputs (b : Byte) (s : State) :
    feed b (s.withOutputs last sel en) = (feed b s).withOutputs last sel en := by
  rw [feed, feed, map_selectRow (State.withOutputs last sel en)]
  simp only [cfgData_withOutputs, stateData_withOutputs]
  rfl

end Outputs

/-- Settles O4: `exec_decode` names the one operation, `applyEvent_feed` its event, `feed_frame` what stays, and
`feed_withOutputs` what is not read. -/
theorem feedRunsOneDecodedOperation : Obligations.FeedRunsOneDecodedOperation := by
  intro b s
  obtain ⟨e, event, -⟩ := applyEvent_feed b s
  have frame := feed_frame b s
  exact ⟨feed b s, e, exec_feed b s, exec_decode b s, event, frame.par, frame.last, frame.sel, frame.en,
    frame.env, frame.draws, frame.trace,
    fun last sel en => congrArg Host.Outcome.next (feed_withOutputs last sel en b s)⟩

end Machine

end Sys2Proof

/-! SUPPORT. Which field a byte of a configuration frame fills, and which half of it (30_encoding.md R84). -/

namespace Sys2Proof

theorem TimingConfig.fields_modifyField (c : TimingConfig) (k : Nat) (g : Word → Word) :
    (c.modifyField k g).fields = c.fields.modify k g := by
  match k with
  | 0 | 1 | 2 | 3 => rfl
  | k + 4 => exact (List.modify_eq_self (Nat.le_add_left 4 k)).symm

/-- The byte with index `2 * f` fills the low half of field `f`, the next one its high half; a byte with any
other index leaves the field alone. -/
theorem TimingConfig.field_setByte {c : TimingConfig} {cnt f : Nat} {b : Byte} {old new : Word}
    (hold : c.fields[f]? = some old) (hnew : (c.setByte cnt b).fields[f]? = some new) :
    (cnt = 2 * f → new = setLoByte old b) ∧
    (cnt = 2 * f + 1 → new = setHiByte old b) ∧
    (cnt ≠ 2 * f → cnt ≠ 2 * f + 1 → new = old) := by
  simp only [setByte, fields_modifyField, List.getElem?_modify, hold, Option.map_eq_map, Option.map_some,
    Option.some.injEq] at hnew
  refine ⟨?_, ?_, fun notLow notHigh => ?_⟩
  · rintro rfl
    rw [← hnew, if_pos (by omega), if_pos (by omega)]
  · rintro rfl
    rw [← hnew, if_pos (by omega), if_neg (by omega)]
  · rw [← hnew, if_neg (by omega)]

namespace Machine

/-- Settles O8: the accumulator after the byte is `setByte` of the one before, whose fields `field_setByte`
gives; `cfgData_eq_of_lt` and `cfgData_eq_of_eq` are the two ends of the count. -/
theorem cfgDataFillsOneByteAndLatchesOnTheEighth :
    Obligations.CfgDataFillsOneByteAndLatchesOnTheEighth := by
  refine ⟨fun b s receiving => congrArg Host.Outcome.next (feed_cfgData receiving), fun b s _ =>
    ⟨s.acc.setByte s.cnt b, fun f _ old new hold hnew => ?_, fun early => ?_, fun eighth => ?_⟩⟩
  · obtain ⟨low, high, other⟩ := TimingConfig.field_setByte hold hnew
    refine ⟨fun h => ?_, fun h => ?_, other⟩
    · rw [low h]
      exact ⟨loByte_setLoByte old b, hiByte_setLoByte old b⟩
    · rw [high h]
      exact ⟨hiByte_setHiByte old b, loByte_setHiByte old b⟩
  · rw [exec_cfgData, cfgData_eq_of_lt early]
  · rw [exec_cfgData, cfgData_eq_of_eq eighth, eighth]

end Machine

end Sys2Proof

/-! SUPPORT. The decoder mode after each operation (40_frame_decoder.md R124). -/

namespace Sys2Proof.Machine

/-- At or above the unit limit a state data byte is the hard stop (R120). -/
theorem stateData_of_at_limit {s : State}
    (h : ∃ limit, s.par.unitLimit = some limit ∧ limit ≤ s.par.stateMap.unit s.cnt) (b : Byte) :
    stateData b s = hardStop s := by
  rw [stateData, overLimit_true.mpr h]
  rfl

theorem cfgData_mode_of_lt {s : State} (h : s.cnt < 7) (b : Byte) : (cfgData b s).mode = s.mode := by
  rw [cfgData_eq_of_lt h]

theorem cfgData_mode_of_eq {s : State} (h : s.cnt = 7) (b : Byte) : (cfgData b s).mode = .idle := by
  rw [cfgData_eq_of_eq h]

@[simp] theorem acceptStateByte_mode (b : Byte) (s : State) : (acceptStateByte b s).mode = s.mode := rfl

@[simp] theorem hardStop_mode (s : State) : (hardStop s).mode = .idle := rfl

@[simp] theorem tick_mode (now : Nat) (s : State) : (tick now s).mode = s.mode := by
  obtain ⟨-, -, mode, -⟩ := tick_sameDecoderState now s
  exact mode

@[simp] theorem applyEvent_mode (ev : DecoderEvent) (s : State) : (applyEvent ev s).mode = s.mode := by
  cases ev <;> rfl

theorem SendsOnly.mode_eq {s t : State} (h : SendsOnly s t) : t.mode = s.mode := by
  obtain ⟨_, _, rfl⟩ := h
  rfl

/-- The operations that no byte selects keep the mode, FEED and STEP apart (R99, R124). -/
theorem exec_mode_of_not_encoded {i : Instr} {s t : State} (unencoded : encode i = none)
    (notFeed : ∀ b, i ≠ .feed b) (notStep : ∀ inp now, i ≠ .step inp now) (h : exec i s = .next t) :
    t.mode = s.mode := by
  cases i with
  | cfgBegin | stateBegin | idleIgnore | cfgData | stateEnd | stateData => cases unencoded
  | feed b => exact absurd rfl (notFeed b)
  | step inp now => exact absurd rfl (notStep inp now)
  | phaseOf | target | word | dataByte => cases h; rfl
  | tick now => cases h; exact tick_mode now s
  | apply ev => cases h; exact applyEvent_mode ev s
  | emit ph => cases h; exact (emit_sendsOnly ph s).mode_eq
  | emitDirectBoard board v => rw [onBoard_next h]; exact (emitDirectBoard_sendsOnly board v s).mode_eq
  | emitRegaddrBoard board v => rw [onBoard_next h]; exact (emitRegaddrBoard_sendsOnly board v s).mode_eq

/-- Settles O15: each row of R124 is FEED's row of R82 and the mode that row's operation leaves;
`exec_mode_of_not_encoded` leaves no other transition. -/
theorem modeFollowsTheGraph : Obligations.ModeFollowsTheGraph := by
  refine ⟨fun b s => ⟨feed b s, exec_feed b s, ?_, ?_, ?_, ?_, ?_, ?_, ?_, ?_⟩,
    fun now s => ⟨_, exec_tick now s, tick_mode now s⟩,
    fun ev s => ⟨_, exec_apply ev s, applyEvent_mode ev s⟩, fun i s t => exec_mode_of_not_encoded⟩
  · rintro idle rfl
    rw [feed_cfgBegin idle]
    rfl
  · rintro idle rfl
    rw [feed_stateBegin idle]
    rfl
  · intro idle h80 h81
    rw [feed_idleIgnore idle h80 h81]
    exact idle
  · intro config early
    rw [feed_cfgData config, cfgData_mode_of_lt early, config]
  · intro config eighth
    rw [feed_cfgData config, cfgData_mode_of_eq eighth]
  · rintro state rfl
    rw [feed_stateEnd state]
    rfl
  · intro state h82 below
    rw [feed_stateData state h82, stateData_of_below_limit below, acceptStateByte_mode, state]
  · intro state h82 atLimit
    rw [feed_stateData state h82, stateData_of_at_limit atLimit, hardStop_mode]

end Sys2Proof.Machine

/-! SUPPORT. CFG_BEGIN, IDLE_IGNORE and STATE_END as record equations, and the bytes that select them
(40_frame_decoder.md R110, R112, R118). -/

namespace Sys2Proof.Machine

theorem cfgBegin_eq (s : State) :
    cfgBegin s = { s with mode := .receivingConfig, acc := ⟨0, 0, 0, 0⟩, cnt := 0, ret := .event .none } := rfl

theorem idleIgnore_eq (b : Byte) (s : State) : idleIgnore b s = { s with ret := .event .none } := rfl

theorem stateEnd_eq (s : State) :
    stateEnd s = { s with latch := byCommit s s.latch s.shadow, mode := .idle,
                          ret := .event (.stateReady (byCommit s s.latch s.shadow)) } := rfl

/-- Settles O5: the record equation of CFG_BEGIN, and the byte 0x80 in each of the three modes. -/
theorem cfgBeginOpensConfigurationFrame : Obligations.CfgBeginOpensConfigurationFrame := by
  refine ⟨fun s => ?_, fun s idle => ?_, fun s config => ?_, fun s state => ?_⟩
  · rw [exec_cfgBegin, cfgBegin_eq]
  · rw [exec_feed, feed_cfgBegin idle, exec_cfgBegin]
  · rw [exec_feed, feed_cfgData config, exec_cfgData]
  · rw [exec_feed, feed_stateData state (by decide), exec_stateData]

/-- Settles O7: every byte but the two start markers, the sentinel 0x82 included, selects IDLE_IGNORE in IDLE. -/
theorem idleIgnoresOtherBytes : Obligations.IdleIgnoresOtherBytes := by
  have ignored (b : Byte) (s : State) (idle : s.mode = .idle) (h80 : b ≠ 0x80#8) (h81 : b ≠ 0x81#8) :
      exec (.feed b) s = .next { s with ret := .event .none } := by
    rw [exec_feed, feed_idleIgnore idle h80 h81, idleIgnore_eq]
  refine ⟨fun b s => ?_, ignored, fun s idle => ignored _ s idle (by decide) (by decide)⟩
  rw [exec_idleIgnore, idleIgnore_eq]

/-- Settles O14: the commit policy decides whether STATE_END's latch is `D` or `S`; the byte 0x82 selects it
while a state frame is received. -/
theorem stateEndCommitsAndReports : Obligations.StateEndCommitsAndReports := by
  refine ⟨fun s incremental => ?_, fun s atFrameEnd => ?_, fun s state => ?_⟩
  · rw [exec_stateEnd, stateEnd_eq, byCommit_incremental incremental]
  · rw [exec_stateEnd, stateEnd_eq, byCommit_atFrameEnd atFrameEnd]
  · rw [exec_feed, feed_stateEnd state, exec_stateEnd]

end Sys2Proof.Machine

/-! SUPPORT. The interval of positions at which each phase is computed, how often a period of readings meets it
(41_scheduler.md R140, R145, R146, R147), and the STEP that latches a new configuration (R150). -/

namespace Sys2Proof.Machine

/-! ### The interval of a phase -/

/-- The duration that the configuration gives a phase (R23). -/
def phaseDuration (c : TimingConfig) : Phase → Word
  | .pulseForward => c.up
  | .idleAfterForward => c.inter
  | .pulseReverse => c.down
  | .idleAfterReverse => c.pause

/-- The positions of the period that belong to a phase: from one boundary of R140 up to the next. -/
def phaseInterval (c : TimingConfig) : Phase → Finset Nat
  | .pulseForward => .Ico 0 (boundary1 c)
  | .idleAfterForward => .Ico (boundary1 c) (boundary2 c)
  | .pulseReverse => .Ico (boundary2 c) (boundary3 c)
  | .idleAfterReverse => .Ico (boundary3 c) (period c)

theorem phaseInterval_card (c : TimingConfig) (ph : Phase) :
    (phaseInterval c ph).card = (phaseDuration c ph).toNat := by
  cases ph with
  | pulseForward => exact Nat.card_Ico ..
  | idleAfterForward | pulseReverse | idleAfterReverse =>
    exact (Nat.card_Ico ..).trans (Nat.add_sub_cancel_left ..)

theorem boundary1_le_boundary2 (c : TimingConfig) : boundary1 c ≤ boundary2 c := Nat.le_add_right ..

theorem boundary2_le_boundary3 (c : TimingConfig) : boundary2 c ≤ boundary3 c := Nat.le_add_right ..

theorem boundary3_le_period (c : TimingConfig) : boundary3 c ≤ period c := Nat.le_add_right ..

/-- The four intervals cover the period: a position lies in the interval of the phase computed there. -/
theorem mem_phaseInterval_phaseAt {c : TimingConfig} {e : Nat} (h : e < period c) :
    e ∈ phaseInterval c (phaseAt c e) := by
  obtain ⟨hi, hph⟩ | ⟨lo, hi, hph⟩ | ⟨lo, hi, hph⟩ | ⟨lo, hph⟩ := phaseAt_cases c e
  · exact hph ▸ Finset.mem_Ico.mpr ⟨e.zero_le, hi⟩
  · exact hph ▸ Finset.mem_Ico.mpr ⟨lo, hi⟩
  · exact hph ▸ Finset.mem_Ico.mpr ⟨lo, hi⟩
  · exact hph ▸ Finset.mem_Ico.mpr ⟨lo, h⟩

/-- The four intervals are disjoint: a position lies in the interval of no phase but the one computed there. -/
theorem phaseAt_of_mem_phaseInterval {c : TimingConfig} {ph : Phase} {e : Nat}
    (h : e ∈ phaseInterval c ph) : phaseAt c e = ph := by
  have h12 := boundary1_le_boundary2 c
  have h23 := boundary2_le_boundary3 c
  cases ph <;> obtain ⟨lo, hi⟩ := Finset.mem_Ico.mp h
  case pulseForward => exact if_pos hi
  case idleAfterForward => rw [phaseAt, if_neg (by omega), if_pos hi]
  case pulseReverse => rw [phaseAt, if_neg (by omega), if_neg (by omega), if_pos hi]
  case idleAfterReverse => rw [phaseAt, if_neg (by omega), if_neg (by omega), if_neg (by omega)]

theorem phaseAt_eq_iff {c : TimingConfig} {e : Nat} (h : e < period c) (ph : Phase) :
    phaseAt c e = ph ↔ e ∈ phaseInterval c ph :=
  ⟨fun hph => hph ▸ mem_phaseInterval_phaseAt h, phaseAt_of_mem_phaseInterval⟩

/-- No interval reaches past the end of the period. -/
theorem lt_period_of_mem_phaseInterval {c : TimingConfig} {ph : Phase} {e : Nat}
    (h : e ∈ phaseInterval c ph) : e < period c := by
  have h12 := boundary1_le_boundary2 c
  have h23 := boundary2_le_boundary3 c
  have h3P := boundary3_le_period c
  cases ph <;> obtain ⟨-, hi⟩ := Finset.mem_Ico.mp h <;> omega

/-- A reading below the wrap is the position it names, modulo the period (R140, R145). -/
theorem phaseOf_of_lt_wrap {p : Params} {c : TimingConfig} {now : Nat} (pos : 0 < period c)
    (h : now < 2 ^ p.timeWidth) : phaseOf p c now = phaseAt c (now % period c) := by
  rw [phaseOf_of_pos p pos, Params.reading, Nat.mod_eq_of_lt h]

/-! ### Counting over a period -/

/-- Any window of one period's length meets a periodic predicate as often as the first one does. -/
theorem count_window_of_periodic {q : Nat → Prop} [DecidablePred q] {n : Nat}
    (periodic : ∀ k, q (k + n) ↔ q k) (start : Nat) :
    Nat.count (fun k => q (start + k)) n = Nat.count q n := by
  have shifted : Nat.count (fun k => q (k + n)) start = Nat.count q start :=
    List.countP_congr fun k _ => by simp only [decide_eq_true_eq, periodic]
  refine Nat.add_left_cancel (n := Nat.count q start) ?_
  rw [← Nat.count_add, Nat.count_add', shifted, Nat.add_comm]

theorem count_phaseAt (c : TimingConfig) (ph : Phase) :
    Nat.count (fun e => phaseAt c (e % period c) = ph) (period c) = (phaseDuration c ph).toNat := by
  rw [Nat.count_eq_card_filter_range, ← phaseInterval_card]
  congr 1
  ext e
  rw [Finset.mem_filter, Finset.mem_range]
  constructor
  · rintro ⟨he, hph⟩
    rwa [Nat.mod_eq_of_lt he, phaseAt_eq_iff he] at hph
  · intro hmem
    have he := lt_period_of_mem_phaseInterval hmem
    exact ⟨he, by rwa [Nat.mod_eq_of_lt he, phaseAt_eq_iff he]⟩

/-- Over one period of consecutive readings below the wrap each phase is computed as often as its duration
says (R146). -/
theorem countP_phaseOf {p : Params} {c : TimingConfig} {start : Nat} (pos : 0 < period c)
    (hwrap : start + period c ≤ 2 ^ p.timeWidth) (ph : Phase) :
    (List.range (period c)).countP (fun k => phaseOf p c (start + k) = ph) = (phaseDuration c ph).toNat :=
  calc (List.range (period c)).countP (fun k => phaseOf p c (start + k) = ph)
    _ = Nat.count (fun k => phaseAt c ((start + k) % period c) = ph) (period c) :=
      List.countP_congr fun k hk => by
        have hlt : start + k < 2 ^ p.timeWidth := by
          have := List.mem_range.mp hk
          omega
        rw [phaseOf_of_lt_wrap pos hlt]
    _ = Nat.count (fun e => phaseAt c (e % period c) = ph) (period c) :=
      count_window_of_periodic (q := fun e => phaseAt c (e % period c) = ph)
        (fun k => by rw [Nat.add_mod_right]) start
    _ = (phaseDuration c ph).toNat := count_phaseAt c ph

/-- Settles O19: each range is membership in a `phaseInterval`, and `countP_phaseOf` counts each phase. -/
theorem phasesPartitionThePeriod : Obligations.PhasesPartitionThePeriod := by
  intro p c start pos hwrap
  refine ⟨fun e he => ?_, countP_phaseOf pos hwrap _, countP_phaseOf pos hwrap _, countP_phaseOf pos hwrap _,
    countP_phaseOf pos hwrap _⟩
  have interval (ph : Phase) : phaseOf p c e = ph ↔ e ∈ phaseInterval c ph := by
    rw [phaseOf_of_lt_wrap pos (by omega), Nat.mod_eq_of_lt he, phaseAt_eq_iff he]
  refine ⟨(interval _).trans ?_, (interval _).trans Finset.mem_Ico, (interval _).trans Finset.mem_Ico,
    (interval _).trans Finset.mem_Ico⟩
  exact Finset.mem_Ico.trans (and_iff_right e.zero_le)

/-! ### Phases of duration zero -/

/-- A phase of duration zero has no position, so that no reading computes it (R147). -/
theorem phaseOf_ne_of_duration_zero {c : TimingConfig} {ph : Phase} (pos : 0 < period c)
    (zero : phaseDuration c ph = 0) (p : Params) (now : Nat) : phaseOf p c now ≠ ph := by
  intro hph
  rw [phaseOf_of_pos p pos, phaseAt_eq_iff (Nat.mod_lt _ pos)] at hph
  have hcard : (phaseInterval c ph).card = 0 := by rw [phaseInterval_card, zero]; rfl
  rw [Finset.card_eq_zero.mp hcard] at hph
  exact Finset.notMem_empty _ hph

/-- Settles O20: `phaseOf_ne_of_duration_zero` at each of the four phases. -/
theorem zeroDurationPhaseIsSkipped : Obligations.ZeroDurationPhaseIsSkipped := by
  intro now s pos
  have skipped (ph : Phase) (zero : phaseDuration s.cfg ph = 0) : phaseOf s.par s.cfg now ≠ ph :=
    phaseOf_ne_of_duration_zero pos zero s.par now
  exact ⟨_, exec_phaseOf now s, skipped .pulseForward, skipped .idleAfterForward, skipped .pulseReverse,
    skipped .idleAfterReverse⟩

/-! ### The STEP of the eighth byte -/

/-- The eighth byte of a configuration frame is the high byte of the last duration (R84). -/
theorem setByte_seven (c : TimingConfig) (b : Byte) :
    c.setByte 7 b = { c with pause := setHiByte c.pause b } := rfl

/-- Settles O24: the FEED of the eighth byte has latched the new durations when TICK runs, which does not see
the event that FEED returned. -/
theorem newConfigurationActsInItsOwnStep : Obligations.NewConfigurationActsInItsOwnStep := by
  intro b now s config eighth
  refine ⟨s.acc.setByte 7 b, rfl, rfl, rfl, ?_, ?_, ?_⟩
  · rw [setByte_seven]
    exact loByte_setHiByte s.acc.pause b
  · rw [setByte_seven]
    exact hiByte_setHiByte s.acc.pause b
  · rw [exec_step, controllerStep_some, feed_cfgData config, cfgData_eq_of_eq eighth, exec_tick]
    exact congrArg Host.Outcome.next (tick_returning now (.event (.configReady (s.acc.setByte 7 b)))
      { s with cfg := s.acc.setByte 7 b, acc := s.acc.setByte 7 b, cnt := 8, mode := .idle })

end Sys2Proof.Machine

/-! SUPPORT. The target vector by phase (42_bitpacker.md R160), the events of an EMIT as a function (R173), and
the DIRECT frame of a board by position (R93, R163). -/

namespace Sys2Proof.Machine

/-! ### The target vector -/

/-- A bridge that is off is driven OFF in every phase (R160). -/
theorem targetOf_false (ph : Phase) : targetOf ph false = .off := by
  cases ph <;> rfl

/-- In an idle phase every bridge is driven OFF, whatever its bit (R160). -/
theorem targetOf_idle {ph : Phase} (idle : ph = .idleAfterForward ∨ ph = .idleAfterReverse) (on : Bool) :
    targetOf ph on = .off := by
  obtain rfl | rfl := idle <;> rfl

/-- The two idle phases have one target vector (R160). -/
theorem targetVector_idleAfterForward (p : Params) (d : List Bool) :
    targetVector p .idleAfterForward d = targetVector p .idleAfterReverse d := rfl

/-- The target of a bridge whose bit is known (R160). -/
theorem targetVector_of_latch {p : Params} {d : List Bool} {i : Nat} {on : Bool} (ph : Phase)
    (hi : i < p.nBridges) (hd : d[i]? = some on) : (targetVector p ph d)[i]? = some (targetOf ph on) := by
  rw [targetVector_getElem? p ph d hi, List.getD_eq_getElem?_getD, hd, Option.getD_some]

/-- Settles O27: `targetOf` at each phase and each bit, carried over to the vector by `targetVector_of_latch`. -/
theorem targetDrivesTheBridgesThatAreOn : Obligations.TargetDrivesTheBridgesThatAreOn := by
  intro ph s
  refine ⟨targetVector s.par ph s.latch, exec_target ph s, targetVector_length _ _ _,
    fun i hi => ⟨?_, ?_, fun off => ?_, fun idle => ?_⟩⟩
  · rintro rfl on
    exact targetVector_of_latch .pulseForward hi on
  · rintro rfl on
    exact targetVector_of_latch .pulseReverse hi on
  · rw [targetVector_of_latch ph hi off, targetOf_false]
  · rw [targetVector_getElem? _ _ _ hi, targetOf_idle idle]

/-- Settles O36: the function is `emitEvents` of the phase's target vector, and the idle phases have one target
vector. -/
theorem emitBytesDependOnPhaseLatchAndParametersOnly :
    Obligations.EmitBytesDependOnPhaseLatchAndParametersOnly := by
  intro p latch
  refine ⟨fun ph => emitEvents p (targetVector p ph latch), ?_, ?_⟩
  · exact congrArg (emitEvents p) (targetVector_idleAfterForward p latch)
  · rintro ph s rfl rfl
    exact ⟨emit ph s, exec_emit ph s, by rw [emit_eq]⟩

/-! ### The DIRECT frame of a board -/

/-- A per-board emitter runs on operands that exist. -/
theorem onBoard_of_operands {perChip board : Nat} {t : List BridgeState} {s : State} (f : State → State)
    (hboard : board < s.par.nBoards) (ht : perChip * s.par.globalChip board s.par.chipsPerBoard ≤ t.length) :
    onBoard perChip board t s f = .next (f s) := by
  rw [onBoard, if_neg (Nat.not_le.mpr hboard), if_neg (Nat.not_lt.mpr ht)]

/-- The bytes of a DIRECT frame by position (R93, R163): chip c's word, high byte first. -/
theorem directBytes_getElem? (p : Params) (t : List BridgeState) (board : Nat) {c : Nat}
    (hc : c < p.chipsPerBoard) :
    (directBytes p t board)[2 * (p.chipsPerBoard - 1 - c)]? = some (hiByte (chipWord p t board c)) ∧
    (directBytes p t board)[2 * (p.chipsPerBoard - 1 - c) + 1]? = some (loByte (chipWord p t board c)) := by
  have positions := wordBytes_flatMap_getElem? (chipWord p t board) p.chipsDescending (p.chipsPerBoard - 1 - c)
  rwa [chipsDescending_getElem? hc] at positions

/-- A chip's word is the word of its three bridges, when the target vector has them (R52, R163). -/
theorem chipWord_eq_directWord (p : Params) {t : List BridgeState} (board c : Nat)
    (ht : 3 * p.globalChip board c + 2 < t.length) :
    chipWord p t board c =
      directWord p t[3 * p.globalChip board c] t[3 * p.globalChip board c + 1] t[3 * p.globalChip board c + 2] := by
  have h0 : 3 * p.globalChip board c < t.length := by omega
  have h1 : 3 * p.globalChip board c + 1 < t.length := by omega
  simp [chipWord, bridgeIndex, h0, h1, ht]

/-- A chip's bridges lie below those of its board's end (R51, R52). -/
theorem chip_bridges_within {p : Params} {c : Nat} (board : Nat) (hc : c < p.chipsPerBoard) :
    3 * p.globalChip board c + 2 < 3 * p.globalChip board p.chipsPerBoard := by
  unfold Params.globalChip
  omega

/-- Settles O31: `emitDirectBoard_eq` gives the bracket and the frame, `directBytes_getElem?` each chip's two
bytes. -/
theorem directBoardSendsOneFrame : Obligations.DirectBoardSendsOneFrame := by
  intro board t s hboard ht
  refine ⟨directBytes s.par t board, directBytes_length _ _ _, fun c hc => ?_, ?_⟩
  · have hbridges := (chip_bridges_within board hc).trans_le ht
    obtain ⟨hhi, hlo⟩ := directBytes_getElem? s.par t board hc
    rw [chipWord_eq_directWord s.par board c hbridges] at hhi hlo
    exact ⟨_, _, _, _, List.getElem?_eq_getElem _, List.getElem?_eq_getElem _, List.getElem?_eq_getElem hbridges,
      exec_word _ _ _ s, hhi, hlo⟩
  · rw [exec_emitDirectBoard, onBoard_of_operands _ hboard ht, emitDirectBoard_eq, frameEvents]

end Sys2Proof.Machine

/-! SUPPORT. STEP as the composition of FEED, APPLY and TICK (43_controller.md R190). -/

namespace Sys2Proof.Machine

/-- The input half of a STEP with a byte is APPLY of the event its FEED returned, on the state FEED left. -/
theorem serveInput_of_event {b : Byte} {s : State} {e : DecoderEvent} (event : (feed b s).ret = .event e) :
    serveInput (some b) s = applyEvent e (feed b s) :=
  congrArg (fun r => applyEvent (eventOf r) (feed b s)) event

/-- Settles O42: without a byte STEP is TICK by `controllerStep_none`; with one, FEED returns an event by
`applyEvent_feed`, and `serveInput_of_event` gives the state the one TICK starts from. -/
theorem stepIsFeedApplyTick : Obligations.StepIsFeedApplyTick := by
  intro now s
  refine ⟨?_, fun b => ?_⟩
  · rw [exec_step, controllerStep_none, exec_tick]
  · obtain ⟨e, event, -⟩ := applyEvent_feed b s
    refine ⟨feed b s, e, exec_feed b s, event, ?_⟩
    rw [exec_step, controllerStep, serveInput_of_event event, exec_apply, andThen_next, exec_tick]

end Sys2Proof.Machine

/-! SUPPORT. Totality of STEP and of the operations a STEP runs (60_exceptions.md R200, 43_controller.md R194). -/

namespace Sys2Proof.Machine

/-- Settles O46: a machine step is one STEP on the input taken (`step_eq`), and STEP, FEED, TICK and EMIT each
answer the state that `controllerStep`, `feed`, `tick` and `emit` compute, with no stopping branch. -/
theorem stepNeverStops : Obligations.StepNeverStops := by
  refine ⟨fun s => ?_, fun b s => ?_, fun now s => ?_, fun ph s => ?_⟩
  · exact ⟨controllerStep (nextInput s).byte (nextInput s).now (takeInput s), step_eq s⟩
  · exact ⟨feed b s, exec_feed b s⟩
  · exact ⟨tick now s, exec_tick now s⟩
  · exact ⟨emit ph s, exec_emit ph s⟩

end Sys2Proof.Machine

/-! SUPPORT. The decode table from the encoder's side (30_encoding.md R82): what a well-formed operation's mode
and byte decode to, and words of the marker table (R81). -/

namespace Sys2Proof

theorem decode_idle_of_ne {b : Byte} (h80 : b ≠ 0x80#8) (h81 : b ≠ 0x81#8) :
    decode .idle b = .idleIgnore b :=
  (if_neg h80).trans (if_neg h81)

theorem decode_receivingState_of_ne {b : Byte} (h82 : b ≠ 0x82#8) :
    decode .receivingState b = .stateData b :=
  if_neg h82

/-- Well-formedness keeps the operand of IDLE_IGNORE and of STATE_DATA off the markers, which select other
operations; nothing else of the table overlaps (R82). -/
theorem decode_of_encode {p : Params} {i : Instr} {m : Mode} {b : Byte} (wf : i.wf p = true)
    (h : encode i = some (m, b)) : decode m b = i := by
  cases i with
  | cfgBegin | stateBegin | cfgData | stateEnd => cases h; rfl
  | idleIgnore c =>
    cases h
    obtain ⟨h80, h81⟩ := of_decide_eq_true wf
    exact decode_idle_of_ne h80 h81
  | stateData c =>
    cases h
    exact decode_receivingState_of_ne (of_decide_eq_true wf)
  | feed | phaseOf | tick | target | emit | word | emitDirectBoard | dataByte | emitRegaddrBoard | apply
  | step => cases h

/-- Settles O2: `decode_of_encode` one way and `Laws.Reencode.of_decode` the other. -/
theorem decodeAndEncodeAgree : Obligations.DecodeAndEncodeAgree := by
  refine ⟨fun p i m b => decode_of_encode, fun p m b => ?_⟩
  obtain ⟨reencoded, wf⟩ := Laws.Reencode.of_decode m b
  exact ⟨wf p, reencoded⟩

/-- A word of at most eight bits is read as its byte, in the mode its value stands for (R80). -/
theorem decodeTableWord_of_lt {w : Nat} (h : w < 256) (nbits : Nat) :
    decodeTableWord nbits w = some (decode (tableMode w) (BitVec.ofNat 8 w)) := if_pos h

/-- Settles O3: each word is its byte by `decodeTableWord_of_lt`, and the byte's row of `decode` computes. -/
theorem tableWordsDecode : Obligations.TableWordsDecode :=
  ⟨decodeTableWord_of_lt (by decide) 8, decodeTableWord_of_lt (by decide) 8,
    decodeTableWord_of_lt (by decide) 8, decodeTableWord_of_lt (by decide) 8,
    decodeTableWord_of_lt (by decide) 8, rfl, decode_receivingState_of_ne (by decide), rfl⟩

end Sys2Proof

/-! SUPPORT. The operations of a state frame as record equations, under both commit policies at once
(40_frame_decoder.md R111, R119, R120, R121), and a whole state frame (30_encoding.md R86, R87, R90). -/

namespace Sys2Proof.Machine

/-! ### The commit policy -/

@[simp] theorem byCommit_self {α : Type} (s : State) (x : α) : byCommit s x x = x := by
  cases h : s.par.stateCommit <;> simp [byCommit, h]

theorem apply_byCommit {α β : Type} (f : α → β) (s : State) (x y : α) :
    f (byCommit s x y) = byCommit s (f x) (f y) := by
  cases h : s.par.stateCommit <;> simp [byCommit, h]

/-! ### The operations of a state frame -/

/-- `s` in the middle of a state frame: `n` data bytes taken, `v` the vector the frame writes (R30, R31). -/
def loadingState (s : State) (v : List Bool) (n : Nat) : State :=
  { s with mode := .receivingState, cnt := n, latch := byCommit s v s.latch,
           shadow := byCommit s s.shadow v, ret := .event .none }

/-- `s` once a state frame of `n` data bytes has loaded `v` (R118). -/
def stateLoaded (s : State) (v : List Bool) (n : Nat) : State :=
  { s with mode := .idle, cnt := n, latch := v, shadow := byCommit s s.shadow v,
           ret := .event (.stateReady v) }

/-- The vector a state frame starts from: cleared or `D`, by the clear option (R111). -/
def openingVector (s : State) : List Bool :=
  if s.par.clearOnStateBegin then List.replicate s.par.nBridges false else s.latch

theorem openingVector_length {s : State} (h : s.latch.length = s.par.nBridges) :
    (openingVector s).length = s.par.nBridges := by
  unfold openingVector
  split
  · exact List.length_replicate
  · exact h

theorem stateBegin_eq (s : State) : stateBegin s = loadingState s (openingVector s) 0 := by
  cases h : s.par.stateCommit <;>
    simp [stateBegin, clearFrameVector, loadShadow, setFrameVector, frameVector, byCommit, returning,
      loadingState, openingVector, h]

theorem stateEnd_loadingState (s : State) (v : List Bool) (n : Nat) :
    stateEnd (loadingState s v n) = stateLoaded s v n := by
  cases h : s.par.stateCommit <;> simp [stateEnd_eq, loadingState, stateLoaded, byCommit, h]

/-- The vector once the data byte `b` with index `cnt` is written into it (R119). -/
def writeStateByte (p : Params) (cnt : Nat) (b : Byte) (v : List Bool) : List Bool :=
  writeFlags p.nBridges (p.stateMap.base cnt) (p.stateMap.width cnt) b v

@[simp] theorem writeStateByte_length (p : Params) (cnt : Nat) (b : Byte) (v : List Bool) :
    (writeStateByte p cnt b v).length = v.length := writeFlags_length ..

theorem acceptStateByte_eq (b : Byte) (s : State) :
    acceptStateByte b s =
      { s with latch := byCommit s (writeStateByte s.par s.cnt b s.latch) s.latch
               shadow := byCommit s s.shadow (writeStateByte s.par s.cnt b s.shadow)
               cnt := s.cnt + 1
               ret := .event .none } := by
  cases h : s.par.stateCommit <;>
    simp [acceptStateByte, setFrameVector, frameVector, byCommit, returning, writeStateByte, h]

theorem acceptStateByte_loadingState (b : Byte) (s : State) (v : List Bool) (n : Nat) :
    acceptStateByte b (loadingState s v n) = loadingState s (writeStateByte s.par n b v) (n + 1) := by
  rw [acceptStateByte_eq]
  cases h : s.par.stateCommit <;> simp [loadingState, byCommit, h]

theorem hardStop_eq (s : State) :
    hardStop s = { s with mode := .idle, trace := s.trace ++ [.diag], ret := .event .none } := rfl

/-- Settles O6: `stateBegin_eq` under each commit policy and each clear option. -/
theorem stateBeginFollowsPolicies : Obligations.StateBeginFollowsPolicies := by
  intro s
  rw [exec_stateBegin, stateBegin_eq]
  cases commit : s.par.stateCommit <;> simp [loadingState, openingVector, byCommit, commit]

/-- Settles O10: `acceptStateByte_eq` under each commit policy, with `flagsWritten_writeFlags` for the vector. -/
theorem stateDataWritesTheBridgesItCovers : Obligations.StateDataWritesTheBridgesItCovers := by
  intro b s hlatch hshadow below
  rw [exec_stateData, stateData_of_below_limit below, acceptStateByte_eq]
  refine ⟨fun incremental => ⟨writeStateByte s.par s.cnt b s.latch, ?_, ?_⟩,
    fun atFrameEnd => ⟨writeStateByte s.par s.cnt b s.shadow, ?_, ?_⟩⟩
  · exact flagsWritten_writeFlags s.par.stateMap s.cnt b hlatch
  · rw [byCommit_incremental incremental, byCommit_incremental incremental]
  · exact flagsWritten_writeFlags s.par.stateMap s.cnt b hshadow
  · rw [byCommit_atFrameEnd atFrameEnd, byCommit_atFrameEnd atFrameEnd]

/-- Settles O12: `writeFlags_past` leaves both vectors as they are. -/
theorem stateDataPastTheLastBridgeWritesNothing :
    Obligations.StateDataPastTheLastBridgeWritesNothing := by
  intro b s past below
  have unwritten (v : List Bool) : writeStateByte s.par s.cnt b v = v := writeFlags_past past b v
  rw [exec_stateData, stateData_of_below_limit below, acceptStateByte_eq]
  simp only [unwritten, byCommit_self]

/-- Settles O13: at the limit the byte is the hard stop. -/
theorem stateDataAtTheLimitHardStops : Obligations.StateDataAtTheLimitHardStops := by
  intro b s limit hlimit hunit
  rw [exec_stateData, stateData_of_at_limit ⟨limit, hlimit, hunit⟩, hardStop_eq]

/-! ### The data bytes a host sends for a vector -/

/-- The unused high bits of the byte a host sends are zero (R54). -/
theorem stateByte_getLsbD_of_width_le {m : StateMap} {cnt j : Nat} (h : m.width cnt ≤ j) (v : List Bool) :
    (stateByte m v cnt).getLsbD j = false := by
  rw [stateByte, foldl_or_getLsbD, BitVec.getLsbD_zero, Bool.false_or, List.any_map, List.any_eq_false]
  intro k hk
  have hkj : k < j := (List.mem_range.mp hk).trans_le h
  have hbit : (1#8 <<< k).getLsbD j = false := by
    simp [Nat.sub_ne_zero_of_lt hkj]
  simp only [Function.comp, apply_ite (BitVec.getLsbD · j), hbit, BitVec.getLsbD_zero, ite_self]
  exact Bool.false_ne_true

/-- Only a FLAT8 data byte has a bit 7, so that no other map's data byte is the sentinel (R90). -/
theorem stateByte_ne_sentinel {m : StateMap} (h : m ≠ .flat8) (v : List Bool) (cnt : Nat) :
    stateByte m v cnt ≠ 0x82#8 := by
  have width : m.width cnt ≤ 7 := by
    cases m with
    | unit9 => simp only [StateMap.width]; split <;> omega
    | flat6 => exact Nat.le_succ 6
    | flat8 => exact absurd rfl h
  intro sentinel
  have bit7 := stateByte_getLsbD_of_width_le width v
  rw [sentinel] at bit7
  exact absurd bit7 (by decide)

/-- The data byte a host sends for `v` gives the bridges it covers their value in `v` (R54, R86, R87). -/
theorem writeStateByte_stateByte_getElem? {p : Params} {v w : List Bool} {i : Nat}
    (hv : v.length = p.nBridges) (hw : w.length = p.nBridges) (hi : i < p.nBridges) (cnt : Nat) :
    (writeStateByte p cnt (stateByte p.stateMap v cnt) w)[i]? =
      if (flagBit p.stateMap cnt i).isSome then v[i]? else w[i]? := by
  rw [writeStateByte, writeFlags_getElem?, flagBit_eq]
  by_cases covered : p.stateMap.base cnt ≤ i ∧ i < p.stateMap.base cnt + p.stateMap.width cnt
  · have hj : i - p.stateMap.base cnt < p.stateMap.width cnt := by omega
    have hbase : p.stateMap.base cnt + (i - p.stateMap.base cnt) = i := by omega
    rw [if_pos ⟨covered.1, covered.2, hi⟩, stateByte_getLsbD _ _ hj, hbase]
    simp [covered, hv, hw, hi]
  · rw [if_neg (by omega)]
    simp [covered]

/-- The vector once the first `n` data bytes of `v` are written into `w`. -/
def writeVector (p : Params) (v w : List Bool) (n : Nat) : List Bool :=
  (List.range n).foldl (fun w cnt => writeStateByte p cnt (stateByte p.stateMap v cnt) w) w

theorem writeVector_succ (p : Params) (v w : List Bool) (n : Nat) :
    writeVector p v w (n + 1) =
      writeStateByte p n (stateByte p.stateMap v n) (writeVector p v w n) := by
  rw [writeVector, List.range_succ, List.foldl_append]
  rfl

@[simp] theorem writeVector_length (p : Params) (v w : List Bool) (n : Nat) :
    (writeVector p v w n).length = w.length := by
  induction n with
  | zero => rfl
  | succ n ih => rw [writeVector_succ, writeStateByte_length, ih]

/-- A bridge that one of the bytes covers has its value in `v`; a later byte that covers it again writes the
same value. -/
theorem writeVector_getElem?_of_covered {p : Params} {v w : List Bool} {n cnt i : Nat}
    (hv : v.length = p.nBridges) (hw : w.length = p.nBridges) (hi : i < p.nBridges) (hcnt : cnt < n)
    (covered : (flagBit p.stateMap cnt i).isSome = true) : (writeVector p v w n)[i]? = v[i]? := by
  induction n with
  | zero => exact absurd hcnt (Nat.not_lt_zero cnt)
  | succ n ih =>
    rw [writeVector_succ, writeStateByte_stateByte_getElem? hv ((writeVector_length ..).trans hw) hi]
    by_cases now : (flagBit p.stateMap n i).isSome = true
    · rw [if_pos now]
    · have hne : cnt ≠ n := by
        rintro rfl
        exact now covered
      rw [if_neg now, ih (by omega)]

theorem writeVector_eq_of_covers {p : Params} {v w : List Bool} {n : Nat}
    (hv : v.length = p.nBridges) (hw : w.length = p.nBridges)
    (covers : ∀ i, i < p.nBridges → ∃ cnt, cnt < n ∧ (flagBit p.stateMap cnt i).isSome = true) :
    writeVector p v w n = v := by
  apply List.ext_getElem?
  intro i
  by_cases hi : i < p.nBridges
  · obtain ⟨cnt, hcnt, covered⟩ := covers i hi
    exact writeVector_getElem?_of_covered hv hw hi hcnt covered
  · rw [List.getElem?_eq_none (by rw [writeVector_length]; omega), List.getElem?_eq_none (by omega)]

/-! ### A whole state frame -/

theorem feed_opens_state {s : State} (h : s.mode = .idle) :
    feed 0x81#8 s = loadingState s (openingVector s) 0 := by
  rw [feed_stateBegin h, stateBegin_eq]

theorem feed_sentinel_loadingState (s : State) (v : List Bool) (n : Nat) :
    feed 0x82#8 (loadingState s v n) = stateLoaded s v n := by
  rw [feed_stateEnd rfl, stateEnd_loadingState]

theorem feed_loadingState {s : State} {b : Byte} {n : Nat} (h82 : b ≠ 0x82#8)
    (below : ∀ limit, s.par.unitLimit = some limit → s.par.stateMap.unit n < limit) (v : List Bool) :
    feed b (loadingState s v n) = loadingState s (writeStateByte s.par n b v) (n + 1) := by
  rw [feed_stateData rfl h82, stateData_of_below_limit below, acceptStateByte_loadingState]

/-- The data bytes of `v`, below the limit and none of them the sentinel, leave the machine in the frame. -/
theorem feed_stateBytes {s : State} {v w : List Bool} {n : Nat}
    (notSentinel : ∀ cnt, cnt < n → stateByte s.par.stateMap v cnt ≠ 0x82#8)
    (below : ∀ limit, s.par.unitLimit = some limit → ∀ cnt, cnt < n → s.par.stateMap.unit cnt < limit) :
    ((List.range n).map (stateByte s.par.stateMap v)).foldl (fun s b => feed b s) (loadingState s w 0) =
      loadingState s (writeVector s.par v w n) n := by
  induction n with
  | zero => rfl
  | succ n ih =>
    rw [List.range_succ, List.map_append, List.foldl_append,
      ih (fun cnt hcnt => notSentinel cnt (by omega))
        (fun limit hlimit cnt hcnt => below limit hlimit cnt (by omega)),
      writeVector_succ]
    exact feed_loadingState (notSentinel n (by omega)) (fun limit hlimit => below limit hlimit n (by omega)) _

/-- Settles O16: the frame opens with a vector of N elements, its data bytes write `writeVector`, which is `v`
since they reach every bridge, and the sentinel ends it. -/
theorem stateFrameLoadsItsVector : Obligations.StateFrameLoadsItsVector := by
  intro v n s idle hv hlatch _ covers below flat8
  have notSentinel (cnt : Nat) (hcnt : cnt < n) : stateByte s.par.stateMap v cnt ≠ 0x82#8 := by
    by_cases hmap : s.par.stateMap = .flat8
    · exact flat8 hmap cnt hcnt
    · exact stateByte_ne_sentinel hmap v cnt
  have loaded : feedList (stateFrame ((List.range n).map (stateByte s.par.stateMap v))) s =
      .next (stateLoaded s v n) := by
    rw [feedList_eq, stateFrame, List.cons_append, List.foldl_cons, feed_opens_state idle, List.foldl_append,
      feed_stateBytes notSentinel below, writeVector_eq_of_covers hv (openingVector_length hlatch) covers]
    exact congrArg Host.Outcome.next (feed_sentinel_loadingState s v n)
  exact ⟨_, loaded, rfl, rfl, rfl, rfl, rfl, rfl, rfl, rfl, rfl, rfl, rfl, rfl, rfl⟩

end Sys2Proof.Machine

/-! SUPPORT. Reset (10_state.md R38) and the invariant of Safety.lean: the vectors' lengths through each
operation of the FrameDecoder, the outputs through FEED's frame and through TICK (R20, R31, R165). -/

namespace Sys2Proof.Machine

/-! ### The lengths of the vectors -/

/-- `D` and `S` have N elements (R20, R30). -/
def VectorsFit (s : State) : Prop :=
  s.latch.length = s.par.nBridges ∧ s.shadow.length = s.par.nBridges

theorem loadingState_vectorsFit {s : State} {v : List Bool} (h : VectorsFit s)
    (hv : v.length = s.par.nBridges) (n : Nat) : VectorsFit (loadingState s v n) := by
  obtain ⟨hlatch, hshadow⟩ := h
  constructor
  · exact (apply_byCommit List.length s v s.latch).trans (by rw [hv, hlatch, byCommit_self]; rfl)
  · exact (apply_byCommit List.length s s.shadow v).trans (by rw [hv, hshadow, byCommit_self]; rfl)

theorem stateBegin_vectorsFit {s : State} (h : VectorsFit s) : VectorsFit (stateBegin s) :=
  stateBegin_eq s ▸ loadingState_vectorsFit h (openingVector_length h.1) 0

theorem cfgData_vectorsFit {s : State} (h : VectorsFit s) (b : Byte) : VectorsFit (cfgData b s) := by
  unfold cfgData
  dsimp only
  split <;> exact h

theorem stateEnd_vectorsFit {s : State} (h : VectorsFit s) : VectorsFit (stateEnd s) := by
  obtain ⟨hlatch, hshadow⟩ := h
  rw [stateEnd_eq]
  exact ⟨(apply_byCommit List.length s s.latch s.shadow).trans (by rw [hlatch, hshadow, byCommit_self]), hshadow⟩

theorem stateData_vectorsFit {s : State} (h : VectorsFit s) (b : Byte) : VectorsFit (stateData b s) := by
  obtain ⟨hlatch, hshadow⟩ := h
  unfold stateData
  split
  · exact ⟨hlatch, hshadow⟩
  · rw [acceptStateByte_eq]
    constructor
    · exact (apply_byCommit List.length ..).trans (by rw [writeStateByte_length, byCommit_self, hlatch])
    · exact (apply_byCommit List.length ..).trans (by rw [writeStateByte_length, byCommit_self, hshadow])

theorem feed_vectorsFit {s : State} (h : VectorsFit s) (b : Byte) : VectorsFit (feed b s) := by
  obtain ⟨-, -, hf⟩ | ⟨-, -, hf⟩ | ⟨-, -, -, hf⟩ | ⟨-, hf⟩ | ⟨-, -, hf⟩ | ⟨-, -, hf⟩ := feed_cases b s <;>
    rw [hf]
  · exact h
  · exact stateBegin_vectorsFit h
  · exact h
  · exact cfgData_vectorsFit h b
  · exact stateEnd_vectorsFit h
  · exact stateData_vectorsFit h b

/-! ### The byte counter of a configuration frame -/

/-- A configuration frame in progress has taken 0 to 7 bytes (R31). -/
def CountFits (s : State) : Prop := s.mode = .receivingConfig → s.cnt < 8

theorem countFits_of_mode_ne {s : State} (h : s.mode ≠ .receivingConfig) : CountFits s :=
  fun config => absurd config h

theorem cfgData_countFits {s : State} (h : s.cnt < 8) (b : Byte) : CountFits (cfgData b s) := by
  obtain early | eighth : s.cnt < 7 ∨ s.cnt = 7 := by omega
  · rw [cfgData_eq_of_lt early]
    exact fun _ => Nat.succ_lt_succ early
  · rw [cfgData_eq_of_eq eighth]
    exact countFits_of_mode_ne nofun

theorem stateData_mode_ne {s : State} (h : s.mode = .receivingState) (b : Byte) :
    (stateData b s).mode ≠ .receivingConfig := by
  unfold stateData
  split
  · exact nofun
  · rw [acceptStateByte_mode, h]
    exact nofun

theorem feed_countFits {s : State} (h : CountFits s) (b : Byte) : CountFits (feed b s) := by
  obtain ⟨-, -, hf⟩ | ⟨-, -, hf⟩ | ⟨-, -, -, hf⟩ | ⟨config, hf⟩ | ⟨-, -, hf⟩ | ⟨state, -, hf⟩ :=
    feed_cases b s <;> rw [hf]
  · exact fun _ => Nat.zero_lt_succ 7
  · exact countFits_of_mode_ne nofun
  · exact h
  · exact cfgData_countFits (h config) b
  · exact countFits_of_mode_ne nofun
  · exact countFits_of_mode_ne (stateData_mode_ne state b)

/-! ### The invariant -/

theorem inv_iff (s : State) :
    s.Inv ↔ VectorsFit s ∧ CountFits s ∧ s.sel = List.replicate s.par.nBoards false ∧ s.en = true ∧
      Bracketed s.par.nBoards s.trace := by
  constructor
  · rintro ⟨hlatch, hshadow, hsel, hen, hcnt, htrace⟩
    exact ⟨⟨hlatch, hshadow⟩, hcnt, hsel, hen, htrace⟩
  · rintro ⟨⟨hlatch, hshadow⟩, hcnt, hsel, hen, htrace⟩
    exact ⟨hlatch, hshadow, hsel, hen, hcnt, htrace⟩

theorem feed_inv {s : State} (h : s.Inv) (b : Byte) : (feed b s).Inv := by
  obtain ⟨vectors, count, hsel, hen, htrace⟩ := (inv_iff s).mp h
  have frame := feed_frame b s
  refine (inv_iff _).mpr ⟨feed_vectorsFit vectors b, feed_countFits count b, ?_, ?_, ?_⟩
  · rw [frame.sel, frame.par, hsel]
  · rw [frame.en, hen]
  · rw [frame.par]
    obtain same | withDiag := frame.trace
    · rwa [same]
    · rw [withDiag]
      exact bracketed_append htrace rfl

theorem tick_inv {s : State} (h : s.Inv) (now : Nat) : (tick now s).Inv := by
  obtain ⟨vectors, count, hsel, hen, htrace⟩ := (inv_iff s).mp h
  obtain ⟨sel, last, es, ht, frames⟩ := tick_eq now s
  rw [ht]
  refine (inv_iff _).mpr ⟨vectors, count, ?_, hen, bracketed_append htrace ?_⟩
  · obtain ⟨-, -, rfl⟩ | ⟨ph, -, -, rfl⟩ := frames
    · exact hsel
    · rw [hsel, deassertAll_replicate]
  · obtain ⟨rfl, -, -⟩ | ⟨ph, -, rfl, -⟩ := frames
    · rfl
    · exact emitEvents_bracketed ..

theorem controllerStep_inv {s : State} (h : s.Inv) (inp : Option Byte) (now : Nat) :
    (controllerStep inp now s).Inv := by
  cases inp with
  | none => exact tick_inv h now
  | some b =>
    rw [controllerStep_some]
    exact tick_inv (feed_inv h b) now

theorem takeInput_inv {s : State} (h : s.Inv) : (takeInput s).Inv := by
  obtain ⟨env, draws, hs⟩ := takeInput_eq s
  rw [hs]
  exact h

/-- Settles O57: taking the input touches no field of the invariant, and FEED and TICK each keep it. -/
theorem everyStepKeepsTheInvariant : Obligations.EveryStepKeepsTheInvariant := by
  intro s t inv h
  rw [step_eq] at h
  cases h
  exact controllerStep_inv (takeInput_inv inv) _ _

/-! ### Reset -/

/-- Settles O56: both vectors have N elements, no line is asserted, the mode is IDLE and nothing is sent. -/
theorem invariantHoldsAtReset : Obligations.InvariantHoldsAtReset := by
  intro p
  exact (inv_iff _).mpr ⟨⟨List.length_replicate, List.length_replicate⟩, countFits_of_mode_ne nofun, rfl, rfl, rfl⟩

/-- Settles O53: every register is read off `State.resetWith`. -/
theorem resetLeavesTheStatedValues : Obligations.ResetLeavesTheStatedValues :=
  fun _ => ⟨rfl, rfl, rfl, rfl, rfl, rfl, rfl, rfl, rfl, rfl⟩

end Sys2Proof.Machine

/-! SUPPORT. PHASE_OF at a positive and at the zero period (41_scheduler.md R140, R142), and TICK case by case: a
short pulse, a phase that is due, a phase that is not (R143, R144). -/

namespace Sys2Proof.Machine

/-! ### PHASE_OF -/

/-- A period without length has no position; the phase is IDLE_AFTER_REVERSE (R142). -/
theorem phaseOf_of_period_zero {c : TimingConfig} (h : period c = 0) (p : Params) (now : Nat) :
    phaseOf p c now = .idleAfterReverse := if_pos h

/-- Settles O17: each range is membership of the position in a `phaseInterval`. -/
theorem phaseIsRangeMembership : Obligations.PhaseIsRangeMembership := by
  intro now s pos
  have inPeriod : s.par.reading now % period s.cfg < period s.cfg := Nat.mod_lt _ pos
  refine ⟨phaseAt s.cfg (s.par.reading now % period s.cfg), s.par.reading now % period s.cfg, rfl, ?_,
    (phaseAt_eq_iff inPeriod _).trans ?_, (phaseAt_eq_iff inPeriod _).trans Finset.mem_Ico,
    (phaseAt_eq_iff inPeriod _).trans Finset.mem_Ico, (phaseAt_eq_iff inPeriod _).trans ?_⟩
  · rw [exec_phaseOf, phaseOf_of_pos s.par pos, returning]
  · exact Finset.mem_Ico.trans (and_iff_right (Nat.zero_le _))
  · exact Finset.mem_Ico.trans (and_iff_left inPeriod)

/-- Settles O18: four zero durations have period zero. -/
theorem zeroPeriodIsIdleAfterReverse : Obligations.ZeroPeriodIsIdleAfterReverse := by
  intro now s zero
  have period_zero : period s.cfg = 0 := by rw [zero]; rfl
  rw [exec_phaseOf, phaseOf_of_period_zero period_zero, returning]

/-! ### TICK, case by case -/

/-- `s` once the frames of the phase `ph` are sent and `ph` is recorded (R143, R161). -/
def sent (ph : Phase) (s : State) : State :=
  { s with sel := deassertAll (List.range s.par.nBoards) s.sel
           trace := s.trace ++ emitEvents s.par (targetVector s.par ph s.latch)
           last := some ph
           ret := .unit }

theorem sent_eq_emit (ph : Phase) (s : State) : sent ph s = { emit ph s with last := some ph } := by
  rw [emit_eq, sent]

/-- Sending a phase again appends the same events and changes nothing else (R173). -/
theorem sent_sent (ph : Phase) (s : State) :
    sent ph (sent ph s) =
      { sent ph s with
        trace := (sent ph s).trace ++ emitEvents s.par (targetVector s.par ph s.latch) } := by
  simp only [sent, deassertAll_deassertAll]

theorem emissionDue_iff {p : Params} {last : Option Phase} {ph : Phase} :
    emissionDue p last ph = true ↔ p.emitPolicy = .always ∨ last ≠ some ph := decide_eq_true_iff

/-- An idle phase is never a short pulse (R144). -/
theorem not_shortPulse_idleAfterReverse (s : State) : ¬ ShortPulse s .idleAfterReverse := by
  rintro ⟨-, ⟨h, -⟩ | ⟨h, -⟩⟩ <;> cases h

section TickCases
variable {now : Nat} {s : State} {ph : Phase} (hph : phaseOf s.par s.cfg now = ph)
include hph

theorem tick_of_short (short : ShortPulse s ph) : tick now s = returning .unit s := by
  rw [tick, hph]
  exact congrArg (returning .unit) (if_pos ((suppressed_iff s ph).mpr short))

theorem tick_of_due (long : ¬ ShortPulse s ph) (due : s.par.emitPolicy = .always ∨ s.last ≠ some ph) :
    tick now s = sent ph s := by
  rw [tick, hph]
  dsimp only
  rw [if_neg (mt (suppressed_iff s ph).mp long), if_pos (emissionDue_iff.mpr due), sent_eq_emit, emit_eq]
  rfl

theorem tick_of_not_due (long : ¬ ShortPulse s ph) (edge : s.par.emitPolicy = .edge)
    (recorded : s.last = some ph) : tick now s = returning .unit s := by
  have notDue : ¬ (s.par.emitPolicy = .always ∨ s.last ≠ some ph) := by
    rintro (always | h)
    · cases edge.symm.trans always
    · exact h recorded
  rw [tick, hph]
  dsimp only
  rw [if_neg (mt (suppressed_iff s ph).mp long), if_neg (mt emissionDue_iff.mp notDue)]

end TickCases

/-- Settles O21: the two cases of TICK for a phase that is not short. -/
theorem tickEmitsExactlyWhenDue : Obligations.TickEmitsExactlyWhenDue := by
  intro now s ph hph long
  refine ⟨fun due => ⟨emit ph s, exec_emit ph s, ?_⟩, fun edge recorded => ?_⟩
  · rw [exec_tick, tick_of_due hph long due, sent_eq_emit]
  · rw [exec_tick, tick_of_not_due hph long edge recorded, returning]

/-- Settles O22: the case of TICK for a short pulse. -/
theorem shortPulseIsSuppressed : Obligations.ShortPulseIsSuppressed := by
  intro now s short
  rw [exec_tick, tick_of_short rfl short, returning]

/-! ### A second TICK of the same phase -/

section RepeatedTick
variable {now now' : Nat} {s : State} (same : phaseOf s.par s.cfg now' = phaseOf s.par s.cfg now)
include same

/-- Under EDGE the first TICK has recorded the phase, or the phase is suppressed again (R143, R144). -/
theorem tick_tick_of_edge (edge : s.par.emitPolicy = .edge) : tick now' (tick now s) = tick now s := by
  by_cases short : ShortPulse s (phaseOf s.par s.cfg now)
  · rw [tick_of_short rfl short, tick_returning, tick_of_short same short]
  · by_cases recorded : s.last = some (phaseOf s.par s.cfg now)
    · rw [tick_of_not_due rfl short edge recorded, tick_returning, tick_of_not_due same short edge recorded]
    · rw [tick_of_due rfl short (.inr recorded)]
      exact tick_of_not_due same short edge rfl

/-- Under ALWAYS the second TICK sends what the first one sent: nothing, or the frames of the phase. -/
theorem tick_tick_of_always (always : s.par.emitPolicy = .always) :
    ∃ es, (tick now s).trace = s.trace ++ es ∧
      tick now' (tick now s) = { tick now s with trace := (tick now s).trace ++ es } := by
  by_cases short : ShortPulse s (phaseOf s.par s.cfg now)
  · refine ⟨[], ?_, ?_⟩
    · rw [tick_of_short rfl short, List.append_nil, returning_trace]
    · rw [tick_of_short rfl short, tick_returning, tick_of_short same short, List.append_nil]
  · have again : tick now' (sent (phaseOf s.par s.cfg now) s) = sent _ (sent (phaseOf s.par s.cfg now) s) :=
      tick_of_due (s := sent (phaseOf s.par s.cfg now) s) same short (.inl always)
    rw [tick_of_due rfl short (.inl always), again]
    exact ⟨_, rfl, sent_sent ..⟩

end RepeatedTick

/-- Settles O23: `tick_tick_of_edge` and `tick_tick_of_always`. -/
theorem repeatedTickIsIdempotent : Obligations.RepeatedTickIsIdempotent := by
  intro now now' s t same h
  cases h
  refine ⟨fun edge => ?_, fun always => ?_⟩
  · exact congrArg Host.Outcome.next (tick_tick_of_edge same edge)
  · obtain ⟨es, htrace, htick⟩ := tick_tick_of_always same always
    exact ⟨es, htrace, congrArg Host.Outcome.next htick⟩

/-! ### What TICK does not see -/

/-- TICK depends on `D` only through the target vector of the phase it computes (R36, R160). -/
theorem tick_withLatch {now : Nat} {s : State} {d : List Bool}
    (same : targetVector s.par (phaseOf s.par s.cfg now) d =
      targetVector s.par (phaseOf s.par s.cfg now) s.latch) :
    tick now { s with latch := d } = { tick now s with latch := d } := by
  simp only [tick, emit_eq, same]
  split
  · rfl
  · split <;> rfl

/-- `s` with other values in the FrameDecoder's own registers (R36). -/
def State.withHidden (acc : TimingConfig) (cnt : Nat) (mode : Mode) (shadow : List Bool) (s : State) :
    State :=
  { s with acc := acc, cnt := cnt, mode := mode, shadow := shadow }

theorem tick_withHidden (acc : TimingConfig) (cnt : Nat) (mode : Mode) (shadow : List Bool) (now : Nat)
    (s : State) :
    tick now (s.withHidden acc cnt mode shadow) = (tick now s).withHidden acc cnt mode shadow := by
  simp only [tick, emit_eq, State.withHidden]
  split
  · rfl
  · split <;> rfl

/-- Settles O52: a STEP without a byte is TICK, which commutes with any change of the hidden registers. -/
theorem tickDoesNotSeeHiddenDecoderState : Obligations.TickDoesNotSeeHiddenDecoderState := by
  intro now s t acc cnt mode shadow h
  rw [exec_step, controllerStep_none] at h
  cases h
  exact congrArg Host.Outcome.next (tick_withHidden acc cnt mode shadow now s)

/-! ### When no bridge is driven -/

/-- In an idle phase the target vector is all OFF, whatever `D` holds (R160). -/
theorem targetVector_idle {ph : Phase} (idle : ph = .idleAfterForward ∨ ph = .idleAfterReverse) (p : Params)
    (d : List Bool) : targetVector p ph d = List.replicate p.nBridges .off := by
  simp only [targetVector, targetOf_idle idle, List.map_const', List.length_range]

/-- Without a pulse duration no pulse phase is computed (R142, R147). -/
theorem phaseOf_idle_of_no_pulse {c : TimingConfig} (up : c.up = 0) (down : c.down = 0) (p : Params)
    (now : Nat) : phaseOf p c now = .idleAfterForward ∨ phaseOf p c now = .idleAfterReverse := by
  obtain zero | pos := Nat.eq_zero_or_pos (period c)
  · exact .inr (phaseOf_of_period_zero zero p now)
  · cases h : phaseOf p c now with
    | pulseForward => exact absurd h (phaseOf_ne_of_duration_zero (ph := .pulseForward) pos up p now)
    | pulseReverse => exact absurd h (phaseOf_ne_of_duration_zero (ph := .pulseReverse) pos down p now)
    | idleAfterForward => exact .inl rfl
    | idleAfterReverse => exact .inr rfl

/-- Settles O55: either way the target vector of the computed phase is the one with every bridge off. -/
theorem nothingIsDrivenUntilLoaded : Obligations.NothingIsDrivenUntilLoaded := by
  intro now s nothing
  have same : targetVector s.par (phaseOf s.par s.cfg now) (List.replicate s.par.nBridges false) =
      targetVector s.par (phaseOf s.par s.cfg now) s.latch := by
    obtain off | ⟨up, down⟩ := nothing
    · rw [targetVector_off _ _ off, targetVector_off _ _ fun i => by simp]
    · have idle := phaseOf_idle_of_no_pulse up down s.par now
      rw [targetVector_idle idle, targetVector_idle idle]
  refine ⟨_, _, exec_tick now s, exec_tick now _, ?_, ?_⟩ <;> rw [tick_withLatch same]

end Sys2Proof.Machine

/-! SUPPORT. What each operation of a STEP may change (10_state.md R25, R30, 40_frame_decoder.md R126), and the
order of the events of a STEP (20_memory.md R67). -/

namespace Sys2Proof.Machine

/-! ### APPLY -/

/-- Settles O40: each event is one branch of `applyEvent`. -/
theorem applyStoresTheEvent : Obligations.ApplyStoresTheEvent :=
  fun s => ⟨exec_apply .none s, fun c => exec_apply (.configReady c) s, fun v => exec_apply (.stateReady v) s⟩

/-- Settles O41: `applyEvent_feed` at each byte and state. -/
theorem applyAfterFeedChangesNothing : Obligations.ApplyAfterFeedChangesNothing := by
  intro b s
  obtain ⟨e, event, stored⟩ := applyEvent_feed b s
  exact ⟨feed b s, e, exec_feed b s, event, congrArg Host.Outcome.next stored⟩

/-! ### The decoder's registers -/

theorem SendsOnly.sameDecoderState {s t : State} (h : SendsOnly s t) : SameDecoderState s t := by
  obtain ⟨_, _, rfl⟩ := h
  exact ⟨rfl, rfl, rfl, rfl, rfl, rfl⟩

theorem SendsOnly.keeps {s t : State} (h : SendsOnly s t) : SameDecoderState s t ∧ t.last = s.last :=
  ⟨h.sameDecoderState, h.last_eq⟩

theorem returning_sameState (r : Ret) (s : State) :
    SameDecoderState s (returning r s) ∧ SameOutside s (returning r s) :=
  ⟨⟨rfl, rfl, rfl, rfl, rfl, rfl⟩, rfl, rfl, rfl, rfl, rfl, rfl, rfl⟩

/-- Settles O39: an operation that only returns a value keeps all the rest, an emitter only sends frames, and
TICK keeps the decoder's registers. -/
theorem schedulerAndPackerKeepDecoderRegisters : Obligations.SchedulerAndPackerKeepDecoderRegisters := by
  intro s t
  refine ⟨fun now h => ?_, fun now h => ?_, fun ph h => ?_, fun ph h => ?_, fun t0 t1 t2 h => ?_,
    fun board v h => ?_, fun te tOdd h => ?_, fun board v h => ?_⟩
  · cases h; exact returning_sameState _ s
  · cases h; exact tick_sameDecoderState now s
  · cases h; exact returning_sameState _ s
  · cases h; exact (emit_sendsOnly ph s).keeps
  · cases h; exact returning_sameState _ s
  · rw [onBoard_next h]; exact (emitDirectBoard_sendsOnly board v s).keeps
  · cases h; exact returning_sameState _ s
  · rw [onBoard_next h]; exact (emitRegaddrBoard_sendsOnly board v s).keeps

/-- After its input half a STEP keeps the decoder's registers. -/
theorem controllerStep_sameDecoderState (inp : Option Byte) (now : Nat) (s : State) :
    SameDecoderState (serveInput inp s) (controllerStep inp now s) :=
  tick_sameDecoderState now (serveInput inp s)

/-! ### What no operation changes -/

/-- The parameters, the enable line, the script, the draw counter and the events already sent (R7, R32, R67). -/
structure KeepsPast (s t : State) : Prop where
  par : t.par = s.par
  en : t.en = s.en
  env : t.env = s.env
  draws : t.draws = s.draws
  trace : s.trace <+: t.trace

theorem KeepsPast.trans {s t u : State} (hst : KeepsPast s t) (htu : KeepsPast t u) : KeepsPast s u :=
  ⟨htu.par.trans hst.par, htu.en.trans hst.en, htu.env.trans hst.env, htu.draws.trans hst.draws,
    hst.trace.trans htu.trace⟩

theorem FeedFrame.keepsPast {s t : State} (h : FeedFrame s t) : KeepsPast s t := by
  refine ⟨h.par, h.en, h.env, h.draws, ?_⟩
  obtain same | withDiag := h.trace
  · exact same ▸ List.prefix_rfl
  · exact withDiag ▸ List.prefix_append ..

theorem SendsOnly.keepsPast {s t : State} (h : SendsOnly s t) : KeepsPast s t := by
  obtain ⟨_, _, rfl⟩ := h
  exact ⟨rfl, rfl, rfl, rfl, List.prefix_append ..⟩

theorem tick_keepsPast (now : Nat) (s : State) : KeepsPast s (tick now s) := by
  obtain ⟨_, _, _, h, -⟩ := tick_eq now s
  rw [h]
  exact ⟨rfl, rfl, rfl, rfl, List.prefix_append ..⟩

theorem controllerStep_keepsPast (inp : Option Byte) (now : Nat) (s : State) :
    KeepsPast s (controllerStep inp now s) :=
  (serveInput_frame inp s).keepsPast.trans (tick_keepsPast now _)

theorem exec_keepsPast {i : Instr} {s t : State} (h : exec i s = .next t) : KeepsPast s t := by
  obtain frame | ⟨-, sends⟩ | ⟨now, -, rfl⟩ | ⟨inp, now, -, rfl⟩ := exec_cases h
  · exact frame.keepsPast
  · exact sends.keepsPast
  · exact tick_keepsPast now s
  · exact controllerStep_keepsPast inp now s

/-- Settles O47: `exec_keepsPast`; a step of the machine first takes its input, which touches the script and the
draw counter only. -/
theorem parametersEnableAndPastEventsStay : Obligations.ParametersEnableAndPastEventsStay := by
  refine ⟨fun i s t h => ?_, fun s t h => ?_⟩
  · obtain ⟨par, en, env, draws, trace⟩ := exec_keepsPast h
    exact ⟨par, en, env, draws, trace⟩
  · obtain ⟨par, en, -, -, trace⟩ := exec_keepsPast h
    obtain ⟨env, draws, taken⟩ := takeInput_eq s
    rw [taken] at par en trace
    exact ⟨par, en, trace⟩

/-! ### The configuration -/

theorem cfgData_cfg_of_ne {s : State} (h : s.cnt ≠ 7) (b : Byte) : (cfgData b s).cfg = s.cfg := by
  have notEighth : s.cnt + 1 ≠ 8 := fun h8 => h (Nat.succ.inj h8)
  simp only [cfgData, notEighth, if_false, returning_cfg]

/-- FEED leaves `cfg` alone, or takes it whole from `acc` with the eighth byte of a frame (R25, R114). -/
theorem feed_cfg (b : Byte) (s : State) :
    (feed b s).cfg = s.cfg ∨
    (s.mode = .receivingConfig ∧ s.cnt = 7 ∧ (feed b s).mode = .idle ∧ (feed b s).cfg = (feed b s).acc) := by
  obtain ⟨-, -, h⟩ | ⟨-, -, h⟩ | ⟨-, -, -, h⟩ | ⟨config, h⟩ | ⟨-, -, h⟩ | ⟨-, -, h⟩ := feed_cases b s <;>
    rw [h]
  · exact .inl rfl
  · exact .inl rfl
  · exact .inl rfl
  · by_cases eighth : s.cnt = 7
    · rw [cfgData_eq_of_eq eighth]
      exact .inr ⟨config, eighth, rfl, rfl⟩
    · exact .inl (cfgData_cfg_of_ne eighth b)
  · exact .inl rfl
  · unfold stateData
    split <;> exact .inl rfl

/-- Settles O49: `feed_cfg`, and TICK keeps the decoder's registers. -/
theorem configurationChangesOnlyAtFrameEnd : Obligations.ConfigurationChangesOnlyAtFrameEnd := by
  intro inp now s
  refine ⟨controllerStep inp now s, exec_step inp now s, ?_⟩
  obtain ⟨-, hcfg, hmode, -, hacc, -⟩ := controllerStep_sameDecoderState inp now s
  rw [hcfg, hmode, hacc]
  cases inp with
  | none => exact .inl rfl
  | some b =>
    rw [serveInput_some]
    obtain kept | ⟨config, eighth, idle, latched⟩ := feed_cfg b s
    · exact .inl kept
    · exact .inr ⟨config, eighth, nofun, idle, latched⟩

/-! ### The latch and the shadow -/

/-- Under AT_FRAME_END no FEED but that of a state frame's sentinel writes `D` (R126). -/
theorem feed_latch_of_atFrameEnd {b : Byte} {s : State} (atFrameEnd : s.par.stateCommit = .atFrameEnd)
    (notEnd : ¬ (s.mode = .receivingState ∧ b = 0x82#8)) : (feed b s).latch = s.latch := by
  obtain ⟨-, -, h⟩ | ⟨-, -, h⟩ | ⟨-, -, -, h⟩ | ⟨-, h⟩ | ⟨state, sentinel, -⟩ | ⟨-, -, h⟩ := feed_cases b s
  · rw [h]; rfl
  · rw [h, stateBegin_eq]
    exact byCommit_atFrameEnd atFrameEnd ..
  · rw [h]; rfl
  · rw [h, cfgData]
    dsimp only
    split <;> rfl
  · exact absurd ⟨state, sentinel⟩ notEnd
  · rw [h, stateData]
    split
    · rfl
    · rw [acceptStateByte_eq]
      exact byCommit_atFrameEnd atFrameEnd ..

/-- Settles O50: STATE_END commits `S`, `feed_latch_of_atFrameEnd` covers every other byte, and TICK keeps `D`. -/
theorem atFrameEndLatchChangesOnlyAtStateEnd : Obligations.AtFrameEndLatchChangesOnlyAtStateEnd := by
  intro inp now s atFrameEnd
  refine ⟨controllerStep inp now s, exec_step inp now s, ?_⟩
  obtain ⟨hlatch, -⟩ := controllerStep_sameDecoderState inp now s
  rw [hlatch]
  refine ⟨?_, fun notEnd => ?_⟩
  · rintro ⟨state, rfl⟩
    rw [serveInput_some, feed_stateEnd state, stateEnd_eq]
    exact byCommit_atFrameEnd atFrameEnd ..
  · cases inp with
    | none => rfl
    | some b =>
      rw [serveInput_some]
      refine feed_latch_of_atFrameEnd atFrameEnd ?_
      rintro ⟨state, rfl⟩
      exact notEnd ⟨state, rfl⟩

/-- `s` with another shadow vector. -/
def State.withShadow (v : List Bool) (s : State) : State := { s with shadow := v }

/-- The shadow is one of the hidden registers that TICK does not see. -/
theorem tick_withShadow (v : List Bool) (now : Nat) (s : State) :
    tick now (s.withShadow v) = (tick now s).withShadow v := by
  obtain ⟨_, _, _, kept, -⟩ := tick_eq now s
  exact (tick_withHidden s.acc s.cnt s.mode v now s).trans (by rw [kept]; rfl)

section Incremental
variable {s : State} (incremental : s.par.stateCommit = .incremental) (v : List Bool)
include incremental

theorem stateBegin_withShadow : stateBegin (s.withShadow v) = (stateBegin s).withShadow v := by
  simp [stateBegin_eq, loadingState, State.withShadow, openingVector, byCommit, incremental]

theorem stateEnd_withShadow : stateEnd (s.withShadow v) = (stateEnd s).withShadow v := by
  simp [stateEnd_eq, State.withShadow, byCommit, incremental]

theorem acceptStateByte_withShadow (b : Byte) :
    acceptStateByte b (s.withShadow v) = (acceptStateByte b s).withShadow v := by
  simp [acceptStateByte_eq, State.withShadow, byCommit, incremental]

theorem stateData_withShadow (b : Byte) : stateData b (s.withShadow v) = (stateData b s).withShadow v := by
  rw [stateData, stateData, apply_ite (State.withShadow v), acceptStateByte_withShadow incremental]
  rfl

/-- Under INCREMENTAL FEED commutes with any change of `S`, because each of the six operations does (R30). -/
theorem feed_withShadow (b : Byte) : feed b (s.withShadow v) = (feed b s).withShadow v := by
  have config (b : Byte) : cfgData b (s.withShadow v) = (cfgData b s).withShadow v := by
    simp only [cfgData, apply_ite (State.withShadow v)]
    rfl
  rw [feed, feed, map_selectRow (State.withShadow v)]
  simp only [config, stateBegin_withShadow incremental, stateEnd_withShadow incremental,
    stateData_withShadow incremental]
  rfl

theorem serveInput_withShadow (inp : Option Byte) :
    serveInput inp (s.withShadow v) = (serveInput inp s).withShadow v := by
  cases inp with
  | none => rfl
  | some b =>
    rw [serveInput_some, serveInput_some, feed_withShadow incremental]
    rfl

theorem controllerStep_withShadow (inp : Option Byte) (now : Nat) :
    controllerStep inp now (s.withShadow v) = (controllerStep inp now s).withShadow v := by
  rw [controllerStep, controllerStep, serveInput_withShadow incremental, tick_withShadow]

end Incremental

/-- Settles O51: `controllerStep_withShadow`; with the state's own `S` put back, it says that `S` stays. -/
theorem incrementalHasNoShadow : Obligations.IncrementalHasNoShadow := by
  intro inp now v s incremental
  refine ⟨controllerStep inp now s, exec_step inp now s, ?_, ?_⟩
  · have putBack := controllerStep_withShadow incremental s.shadow inp now
    exact (congrArg State.shadow putBack :)
  · exact congrArg Host.Outcome.next (controllerStep_withShadow incremental v inp now)

/-! ### The events of a STEP -/

/-- Settles O43: FEED's frame gives the Diag, `tick_eq` the frames of one EMIT and its phase. -/
theorem stepAppendsDiagThenOneEmission : Obligations.StepAppendsDiagThenOneEmission := by
  intro inp now s
  obtain ⟨d, hd, hdiag, hnone⟩ : ∃ d, (serveInput inp s).trace = s.trace ++ d ∧ (d = [] ∨ d = [.diag]) ∧
      (inp = none → d = []) := by
    cases inp with
    | none => exact ⟨[], (List.append_nil _).symm, .inl rfl, fun _ => rfl⟩
    | some b =>
      obtain same | withDiag := (serveInput_frame (some b) s).trace
      · exact ⟨[], same.trans (List.append_nil _).symm, .inl rfl, nofun⟩
      · exact ⟨[.diag], withDiag, .inr rfl, nofun⟩
  obtain ⟨sel, last, es, ht, sends⟩ := tick_eq now (serveInput inp s)
  refine ⟨controllerStep inp now s, d, es, exec_step inp now s, ?_, hdiag, hnone, ?_⟩
  · rw [controllerStep, ht, ← hd]
  · rw [controllerStep, ht]
    obtain ⟨rfl, rfl, -⟩ | ⟨ph, rfl, rfl, -⟩ := sends
    · exact .inl ⟨rfl, (serveInput_frame inp s).last⟩
    · exact .inr ⟨ph, _, rfl, exec_emit ph _, by rw [emit_eq]⟩

/-- STEP with a byte runs the operation the byte decodes to, then APPLY of its event, then TICK (R190). -/
theorem exec_step_decode (b : Byte) (now : Nat) (s : State) :
    exec (.step (some b) now) s =
      andThen (exec (decode s.mode b) s) fun t =>
        andThen (exec (.apply (eventOf t.ret)) t) (exec (.tick now)) := by
  rw [exec_decode]
  rfl

/-- Settles O44: `exec_step_decode` on the input at the head of the script, or on the free one. -/
theorem machineStepRunsTheDecodedByte : Obligations.MachineStepRunsTheDecodedByte := by
  refine ⟨fun s b now rest h => ?_, fun s now rest h => ?_, fun s h => ?_⟩
  · rw [step, nextInput_cons h, takeInput_cons h, exec_step_decode]
  · rw [step, nextInput_cons h, takeInput_cons h, exec_step, controllerStep_none, exec_tick]
  · rw [step, nextInput, takeInput, h]

/-- Settles O45: the placed byte is the next input, and `exec_step_decode` runs it in the word's mode. -/
theorem placedTableWordRunsNext : Obligations.PlacedTableWordRunsNext := by
  intro s nbits w i h
  obtain ⟨-, hi⟩ := Option.ite_none_right_eq_some.mp h
  cases hi
  rw [step, nextInput_withFetchWord, takeInput_withFetchWord, exec_step_decode]

/-! ### The STEP of an all-zero configuration and the first STEP after reset -/

/-- With period zero a TICK that has not yet recorded IDLE_AFTER_REVERSE sends it (R142, R143). -/
theorem tick_of_period_zero {s : State} (zero : period s.cfg = 0) (h : s.last ≠ some .idleAfterReverse)
    (now : Nat) : tick now s = sent .idleAfterReverse s :=
  tick_of_due (phaseOf_of_period_zero zero s.par now) (not_shortPulse_idleAfterReverse s) (.inr h)

/-- Settles O25: the eighth byte latches four zero durations, whose period is zero. -/
theorem allZeroConfigurationEndsAPulse : Obligations.AllZeroConfigurationEndsAPulse := by
  intro now s config eighth hacc hlast
  have zero : s.acc.setByte 7 0x00#8 = ⟨0, 0, 0, 0⟩ := by rw [hacc]; rfl
  have latched : feed 0x00#8 s = configLoaded s ⟨0, 0, 0, 0⟩ := by
    rw [feed_cfgData config, cfgData_eq_of_eq eighth, zero]
    rfl
  have hstep : controllerStep (some 0x00#8) now s = sent .idleAfterReverse (configLoaded s ⟨0, 0, 0, 0⟩) := by
    rw [controllerStep_some, latched]
    exact tick_of_period_zero (s := configLoaded s ⟨0, 0, 0, 0⟩) rfl hlast now
  refine ⟨controllerStep (some 0x00#8) now s, emit .idleAfterReverse s, exec_step .., exec_emit .., ?_⟩
  rw [hstep, emit_eq]
  exact ⟨rfl, rfl, rfl, rfl⟩

/-- In IDLE a FEED sends no Diag and latches no configuration (R110, R111, R112). -/
theorem feed_of_idle {s : State} (idle : s.mode = .idle) (b : Byte) :
    (feed b s).trace = s.trace ∧ (feed b s).cfg = s.cfg := by
  obtain ⟨-, -, h⟩ | ⟨-, -, h⟩ | ⟨-, -, -, h⟩ | ⟨config, -⟩ | ⟨state, -⟩ | ⟨state, -⟩ := feed_cases b s
  · rw [h]; exact ⟨rfl, rfl⟩
  · rw [h]; exact ⟨rfl, rfl⟩
  · rw [h]; exact ⟨rfl, rfl⟩
  · cases idle.symm.trans config
  · cases idle.symm.trans state
  · cases idle.symm.trans state

theorem serveInput_of_idle {s : State} (idle : s.mode = .idle) (inp : Option Byte) :
    (serveInput inp s).trace = s.trace ∧ (serveInput inp s).cfg = s.cfg := by
  cases inp with
  | none => exact ⟨rfl, rfl⟩
  | some b =>
    rw [serveInput_some]
    exact feed_of_idle idle b

/-- Settles O54: whatever the first byte is, the configuration is still zero and no phase recorded when TICK
runs, and the target vector of an idle phase does not depend on `D`. -/
theorem firstStepSendsAllOff : Obligations.FirstStepSendsAllOff := by
  intro p inp now
  have frame := serveInput_frame inp (State.resetWith p)
  obtain ⟨htrace, hcfg⟩ := serveInput_of_idle (resetWith_mode p) inp
  have notRecorded : (serveInput inp (State.resetWith p)).last ≠ some .idleAfterReverse := by
    rw [frame.last]
    exact nofun
  have hstep : controllerStep inp now (State.resetWith p) =
      sent .idleAfterReverse (serveInput inp (State.resetWith p)) :=
    tick_of_period_zero (by rw [hcfg]; rfl) notRecorded now
  have off (d : List Bool) : targetVector p .idleAfterReverse d = List.replicate p.nBridges .off :=
    targetVector_idle (.inr rfl) p d
  refine ⟨_, _, exec_step .., exec_emit .., ?_, ?_, ?_⟩
  · rw [exec_target, resetWith_par, off, returning]
  · rw [hstep, emit_eq]
    simp only [sent, htrace, frame.par, resetWith_par, off]
  · rw [hstep, sent]

end Sys2Proof.Machine

/-! SUPPORT. The DIRECT word bit by bit and the REGADDR data byte (42_bitpacker.md R162, R168), the REGADDR
frames of a board (R170, R171), and the per-board emitters' stops and order (R161). -/

namespace Sys2Proof.Machine

/-! ### The DIRECT word and the REGADDR data byte -/

theorem bitAt_getLsbD (i : Fin 16) (on : Bool) (j : Nat) :
    (bitAt i on).getLsbD j = (decide (j = i) && on) := by
  cases on with
  | false => simp [bitAt]
  | true => exact (BitVec.getLsbD_twoPow i j).trans (by simp [eq_comm])

/-- A bit of a contribution, from the four positions of its bridge (R91, R92). -/
theorem contribution_getLsbD (p : Params) (k : Fin 3) (t : BridgeState) (j : Nat) :
    (contribution p k t).getLsbD j =
      (decide (j = p.layout.enHi[k]) && decide (t ≠ .off) || decide (j = p.layout.enLo[k]) && decide (t ≠ .off) ||
        decide (j = p.layout.dirHi[k]) && (dirCode p t).getLsbD 1 ||
        decide (j = p.layout.dirLo[k]) && (dirCode p t).getLsbD 0) := by
  simp only [contribution, BitVec.getLsbD_or, bitAt_getLsbD]

/-- With the codes of D11 the direction pair tells FORWARD from REVERSE (R92). -/
theorem dirCode_bits {p : Params} (fwd : p.dirFwd = 0b10#2) (rev : p.dirRev = 0b01#2) (t : BridgeState) :
    (dirCode p t).getLsbD 1 = decide (t = .forward) ∧ (dirCode p t).getLsbD 0 = decide (t = .reverse) := by
  cases t with
  | off | forward | reverse => simp [dirCode, fwd, rev]

/-- Settles O28: `contribution_getLsbD` at the positions of the table of R91, with `dirCode_bits` for the
direction pairs. -/
theorem directWordBitByBit : Obligations.DirectWordBitByBit := by
  intro t0 t1 t2 s table fwd rev
  refine ⟨directWord s.par t0 t1 t2, exec_word t0 t1 t2 s, ?_⟩
  obtain ⟨fwd0, rev0⟩ := dirCode_bits fwd rev t0
  obtain ⟨fwd1, rev1⟩ := dirCode_bits fwd rev t1
  obtain ⟨fwd2, rev2⟩ := dirCode_bits fwd rev t2
  simp only [directWord, BitVec.getLsbD_or, contribution_getLsbD, table, DirectLayout.table, fwd0, rev0, fwd1,
    rev1, fwd2, rev2]
  simp

/-- Settles O29: the two nibbles of the byte, each by its bridge's state. -/
theorem dataByteHoldsTwoNibbles : Obligations.DataByteHoldsTwoNibbles := by
  intro te tOdd s
  obtain ⟨low, high⟩ := extract_joinNibbles (nibble s.par tOdd) (nibble s.par te)
  refine ⟨regData s.par te tOdd, exec_dataByte te tOdd s, ?_, ?_, ?_, ?_, ?_, ?_⟩
  · rintro rfl; exact low
  · rintro rfl; exact low
  · rintro rfl; exact low
  · rintro rfl; exact high
  · rintro rfl; exact high
  · rintro rfl; exact high

/-! ### The per-board emitters -/

theorem onBoard_of_no_board {s : State} {board : Nat} (h : s.par.nBoards ≤ board) (perChip : Nat)
    (t : List BridgeState) (f : State → State) : onBoard perChip board t s f = .fault .noSuchBoard := if_pos h

theorem onBoard_of_no_bridge {s : State} {board perChip : Nat} {t : List BridgeState}
    (hboard : board < s.par.nBoards)
    (ht : t.length < perChip * s.par.globalChip board s.par.chipsPerBoard) (f : State → State) :
    onBoard perChip board t s f = .fault .noSuchBridge :=
  (if_neg (Nat.not_le.mpr hboard)).trans (if_pos ht)

/-- Settles O33: the two stops of `onBoard`, for 3 and for 6 bridges per chip. -/
theorem boardEmittersStopOnAbsentOperands : Obligations.BoardEmittersStopOnAbsentOperands :=
  fun _ t _ =>
    ⟨fun noBoard => ⟨onBoard_of_no_board noBoard 3 t _, onBoard_of_no_board noBoard 6 t _⟩,
      fun hboard => ⟨fun short => onBoard_of_no_bridge hboard short _,
        fun short => onBoard_of_no_bridge hboard short _⟩⟩

/-- A chip's register holds the nibbles of its two bridges, when the target vector has them (R52, R95). -/
theorem chipRegData_eq_regData (p : Params) {t : List BridgeState} {board c : Nat} {r : Fin 3}
    (ht : 6 * p.globalChip board c + 2 * r.val + 1 < t.length) :
    chipRegData p t board r c =
      regData p t[6 * p.globalChip board c + 2 * r.val] t[6 * p.globalChip board c + 2 * r.val + 1] := by
  have heven : 6 * p.globalChip board c + 2 * r.val < t.length := by omega
  simp [chipRegData, bridgeIndex, ← Nat.add_assoc, heven, ht]

/-- A register's bridges lie below those of the end of the chip's board (R51, R52). -/
theorem register_bridges_within {p : Params} {c : Nat} (board : Nat) (r : Fin 3) (hc : c < p.chipsPerBoard) :
    6 * p.globalChip board c + 2 * r.val + 1 < 6 * p.globalChip board p.chipsPerBoard := by
  unfold Params.globalChip
  omega

/-- Settles O32: `emitRegaddrBoard_eq` gives the three brackets, `regaddrBytes_getElem?` each chip's address
byte and data byte. -/
theorem regaddrBoardSendsThreeFrames : Obligations.RegaddrBoardSendsThreeFrames := by
  intro board t s hboard ht
  refine ⟨regaddrBytes s.par t board, fun r => ⟨regaddrBytes_length _ _ _ _, fun c hc => ?_⟩, ?_⟩
  · have hbridges := (register_bridges_within board r hc).trans_le ht
    obtain ⟨haddr, hdata⟩ := regaddrBytes_getElem? s.par t board r hc
    rw [chipRegData_eq_regData s.par hbridges] at hdata
    refine ⟨_, _, _, haddr.trans ?_, List.getElem?_eq_getElem _, List.getElem?_eq_getElem hbridges,
      exec_dataByte _ _ s, hdata⟩
    simp [Params.addrByte]
  · rw [exec_emitRegaddrBoard, onBoard_of_operands _ hboard ht, emitRegaddrBoard_eq]
    simp [registers, frameEvents]

/-! ### EMIT, board by board -/

@[simp] theorem emitBoard_par (board : Nat) (t : List BridgeState) (s : State) :
    (emitBoard board t s).par = s.par := by
  rw [emitBoard_eq]

theorem returning_of_ret {r : Ret} {s : State} (h : s.ret = r) : returning r s = s := by
  rw [returning, ← h]

/-- With at least one board EMIT is its boards' emissions and no more: the last of them has cleared the result
port. -/
theorem emit_eq_foldl {s : State} (h : 1 ≤ s.par.nBoards) (ph : Phase) :
    emit ph s = (List.range s.par.nBoards).foldl
      (fun u board => emitBoard board (targetVector s.par ph s.latch) u) s := by
  obtain ⟨n, hn⟩ := Nat.exists_eq_succ_of_ne_zero (Nat.one_le_iff_ne_zero.mp h)
  refine returning_of_ret ?_
  rw [hn, List.range_succ, List.foldl_append, List.foldl_cons, List.foldl_nil, emitBoard_eq]

/-- A per-board operation that is the machine's own emitter on every board listed runs through them all. -/
theorem foldl_andThen_emitBoard {op : Nat → State → Result} {t : List BridgeState} {p : Params}
    {boards : List Nat}
    (hop : ∀ board ∈ boards, ∀ s : State, s.par = p → op board s = .next (emitBoard board t s))
    {s : State} (hs : s.par = p) :
    boards.foldl (fun o board => andThen o (op board)) (.next s) =
      .next (boards.foldl (fun u board => emitBoard board t u) s) := by
  induction boards generalizing s with
  | nil => rfl
  | cons k ks ih =>
    rw [List.foldl_cons, List.foldl_cons, andThen_next, hop k (by simp) s hs]
    exact ih (fun board hboard => hop board (by simp [hboard])) ((emitBoard_par k t s).trans hs)

section Encodings
variable {s : State} {board : Nat} {t : List BridgeState} (hboard : board < s.par.nBoards)
  (ht : t.length = s.par.nBridges)
include hboard ht

theorem exec_emitDirectBoard_eq_emitBoard (direct : s.par.encoding = .direct) :
    exec (.emitDirectBoard board t) s = .next (emitBoard board t s) := by
  have within := board_within s.par hboard
  rw [direct, ← ht] at within
  rw [exec_emitDirectBoard, onBoard_of_operands (perChip := 3) _ hboard within, emitBoard, direct]

theorem exec_emitRegaddrBoard_eq_emitBoard (regaddr : s.par.encoding = .regaddr) :
    exec (.emitRegaddrBoard board t) s = .next (emitBoard board t s) := by
  have within := board_within s.par hboard
  rw [regaddr, ← ht] at within
  rw [exec_emitRegaddrBoard, onBoard_of_operands (perChip := 6) _ hboard within, emitBoard, regaddr]

end Encodings

/-- Settles O34: in its own encoding the machine's per-board operation is `emitBoard` on every board, and EMIT
is `emitBoard` over all of them. -/
theorem emitServesBoardsInAscendingOrder : Obligations.EmitServesBoardsInAscendingOrder := by
  intro ph s oneBoard
  refine ⟨targetVector s.par ph s.latch, emit ph s, exec_target ph s, exec_emit ph s, fun direct => ?_,
    fun regaddr => ?_⟩ <;> rw [emit_eq_foldl oneBoard]
  · refine foldl_andThen_emitBoard (p := s.par) (fun board hboard u hu => ?_) rfl
    rw [← hu] at hboard direct ⊢
    exact exec_emitDirectBoard_eq_emitBoard (List.mem_range.mp hboard) (targetVector_length ..) direct
  · refine foldl_andThen_emitBoard (p := s.par) (fun board hboard u hu => ?_) rfl
    rw [← hu] at hboard regaddr ⊢
    exact exec_emitRegaddrBoard_eq_emitBoard (List.mem_range.mp hboard) (targetVector_length ..) regaddr

end Sys2Proof.Machine

/-! SUPPORT. The size of an EMIT and its frame (42_bitpacker.md R165, R172), and the latch that the frames of a
pulse determine (R163, R170). -/

namespace Sys2Proof.Machine

/-! ### The size of an EMIT -/

theorem countP_flatMap_of_const {α β : Type} {q : β → Bool} {f : α → List β} {l : List α} {k : Nat}
    (h : ∀ x ∈ l, (f x).countP q = k) : (l.flatMap f).countP q = l.length * k := by
  have counts : l.map (List.countP q ∘ f) = l.map fun _ => k := List.map_congr_left h
  rw [List.countP_flatMap, counts, List.map_const', List.sum_replicate, smul_eq_mul]

@[simp] theorem frameEvents_countP_isSelect (board : Nat) (bytes : List Byte) :
    (frameEvents board bytes).countP BusEvent.isSelect = 1 := by
  have shifts : (bytes.map BusEvent.shift).countP BusEvent.isSelect = 0 :=
    List.countP_map.trans (congrFun List.countP_false bytes)
  simp [frameEvents, List.countP_cons, BusEvent.isSelect, shifts]

@[simp] theorem frameEvents_countP_isShift (board : Nat) (bytes : List Byte) :
    (frameEvents board bytes).countP BusEvent.isShift = bytes.length := by
  have shifts : (bytes.map BusEvent.shift).countP BusEvent.isShift = bytes.length :=
    List.countP_map.trans (congrFun List.countP_true bytes)
  simp [frameEvents, BusEvent.isShift, shifts]

section BoardCounts
variable {p : Params} (t : List BridgeState) (board : Nat)

/-- In DIRECT a board sends one bracket of two bytes per chip (R163). -/
theorem boardEvents_countP_of_direct (direct : p.encoding = .direct) :
    (boardEvents p t board).countP BusEvent.isSelect = 1 ∧
    (boardEvents p t board).countP BusEvent.isShift = 2 * p.chipsPerBoard := by
  simp [boardEvents, direct]

/-- In REGADDR a board sends three such brackets (R170). -/
theorem boardEvents_countP_of_regaddr (regaddr : p.encoding = .regaddr) :
    (boardEvents p t board).countP BusEvent.isSelect = 3 ∧
    (boardEvents p t board).countP BusEvent.isShift = 3 * (2 * p.chipsPerBoard) := by
  simp only [boardEvents, regaddr]
  exact ⟨countP_flatMap_of_const (l := registers) fun r _ => frameEvents_countP_isSelect ..,
    countP_flatMap_of_const (l := registers) fun r _ =>
      (frameEvents_countP_isShift ..).trans (regaddrBytes_length ..)⟩

end BoardCounts

/-- Counts that every board's events share are those of an EMIT, per board. -/
theorem emitEvents_countP {p : Params} {t : List BridgeState} {brackets bytes : Nat}
    (h : ∀ board, (boardEvents p t board).countP BusEvent.isSelect = brackets ∧
      (boardEvents p t board).countP BusEvent.isShift = bytes) :
    (emitEvents p t).countP BusEvent.isSelect = p.nBoards * brackets ∧
    (emitEvents p t).countP BusEvent.isShift = p.nBoards * bytes :=
  ⟨(countP_flatMap_of_const fun board _ => (h board).1).trans (by rw [List.length_range]),
    (countP_flatMap_of_const fun board _ => (h board).2).trans (by rw [List.length_range])⟩

/-- Settles O35: the counts of one board in either encoding, once for each board. -/
theorem emitHasAFixedSize : Obligations.EmitHasAFixedSize := by
  intro ph s
  refine ⟨emit ph s, emitEvents s.par (targetVector s.par ph s.latch), exec_emit ph s, by rw [emit_eq],
    fun direct => ?_, fun regaddr => ?_⟩
  · obtain ⟨brackets, bytes⟩ := emitEvents_countP fun board =>
      boardEvents_countP_of_direct (targetVector s.par ph s.latch) board direct
    exact ⟨brackets.trans (Nat.mul_one _), bytes.trans (by ring)⟩
  · obtain ⟨brackets, bytes⟩ := emitEvents_countP fun board =>
      boardEvents_countP_of_regaddr (targetVector s.par ph s.latch) board regaddr
    exact ⟨brackets.trans (Nat.mul_comm _ _), bytes.trans (by ring)⟩

/-- Settles O37: `emit_eq` is the whole next state; `deassertAll` writes the lines of the boards and no other. -/
theorem emitLeavesOnlyTraceAndDeassertedLines : Obligations.EmitLeavesOnlyTraceAndDeassertedLines := by
  intro ph s
  refine ⟨deassertAll (List.range s.par.nBoards) s.sel, emitEvents s.par (targetVector s.par ph s.latch), ?_,
    deassertAll_length _ _, fun k hk => ?_, fun k hk => ?_, emitEvents_bracketed _ _⟩
  · rw [exec_emit, emit_eq]
  · have line := emit_sel_getD ph s hk
    rwa [emit_eq] at line
  · have absent : k ∉ List.range s.par.nBoards := fun h => Nat.not_lt.mpr hk (List.mem_range.mp h)
    rw [deassertAll_getElem?, if_neg absent]

/-! ### From the events of an EMIT back to its frames -/

/-- Concatenations of pieces of equal lengths are equal piece by piece. -/
theorem flatMap_inj_of_length {α β : Type} {f g : α → List β} {l : List α}
    (len : ∀ x ∈ l, (f x).length = (g x).length) (h : l.flatMap f = l.flatMap g) : ∀ x ∈ l, f x = g x := by
  induction l with
  | nil => nofun
  | cons a as ih =>
    rw [List.flatMap_cons, List.flatMap_cons] at h
    obtain ⟨head, tail⟩ := List.append_inj h (len a (by simp))
    exact List.forall_mem_cons.mpr ⟨head, ih (fun x hx => len x (by simp [hx])) tail⟩

theorem frameEvents_inj {board : Nat} {a b : List Byte} (h : frameEvents board a = frameEvents board b) :
    a = b :=
  List.map_injective_iff.mpr (fun _ _ => BusEvent.shift.inj) (List.append_cancel_right (List.cons.inj h).2)

@[simp] theorem frameEvents_length (board : Nat) (bytes : List Byte) :
    (frameEvents board bytes).length = bytes.length + 2 := by
  simp [frameEvents]

theorem boardEvents_length_eq (p : Params) (t u : List BridgeState) (board : Nat) :
    (boardEvents p t board).length = (boardEvents p u board).length := by
  cases h : p.encoding <;> simp [boardEvents, h, registers]

section SameEvents
variable {p : Params} {t u : List BridgeState} {board : Nat} (hboard : board < p.nBoards)
  (same : emitEvents p t = emitEvents p u)
include hboard same

theorem boardEvents_eq_of_emitEvents_eq : boardEvents p t board = boardEvents p u board :=
  flatMap_inj_of_length (fun _ _ => boardEvents_length_eq ..) same board (List.mem_range.mpr hboard)

variable {c : Nat} (hc : c < p.chipsPerBoard)
include hc

/-- Equal events have equal DIRECT words, chip by chip (R163). -/
theorem chipWord_eq_of_emitEvents_eq (direct : p.encoding = .direct) :
    chipWord p t board c = chipWord p u board c := by
  have frames := boardEvents_eq_of_emitEvents_eq hboard same
  simp only [boardEvents, direct] at frames
  obtain ⟨hiT, loT⟩ := directBytes_getElem? p t board hc
  obtain ⟨hiU, loU⟩ := directBytes_getElem? p u board hc
  rw [frameEvents_inj frames] at hiT loT
  exact word_ext (Option.some.inj (loT.symm.trans loU)) (Option.some.inj (hiT.symm.trans hiU))

/-- Equal events have equal REGADDR data bytes, register by register and chip by chip (R170). -/
theorem chipRegData_eq_of_emitEvents_eq (regaddr : p.encoding = .regaddr) (r : Fin 3) :
    chipRegData p t board r c = chipRegData p u board r c := by
  have frames := boardEvents_eq_of_emitEvents_eq hboard same
  simp only [boardEvents, regaddr] at frames
  have frame := flatMap_inj_of_length (fun _ _ => by simp) frames r (by fin_cases r <;> simp [registers])
  obtain ⟨-, dataT⟩ := regaddrBytes_getElem? p t board r hc
  obtain ⟨-, dataU⟩ := regaddrBytes_getElem? p u board r hc
  rw [frameEvents_inj frame] at dataT
  exact Option.some.inj (dataT.symm.trans dataU)

end SameEvents

/-! ### From the frames of a pulse back to the latch -/

/-- Under the table of R91 the word's bits 8, 10 and 12 are the enables of its three bridges. -/
theorem directWord_enables {p : Params} (table : p.layout = DirectLayout.table) (t0 t1 t2 : BridgeState) :
    (directWord p t0 t1 t2).getLsbD 8 = decide (t0 ≠ .off) ∧
    (directWord p t0 t1 t2).getLsbD 10 = decide (t1 ≠ .off) ∧
    (directWord p t0 t1 t2).getLsbD 12 = decide (t2 ≠ .off) := by
  simp only [directWord, BitVec.getLsbD_or, contribution_getLsbD, table, DirectLayout.table]
  simp

theorem off_iff_of_directWord_eq {p : Params} (table : p.layout = DirectLayout.table)
    {t0 t1 t2 u0 u1 u2 : BridgeState} (h : directWord p t0 t1 t2 = directWord p u0 u1 u2) :
    (t0 = .off ↔ u0 = .off) ∧ (t1 = .off ↔ u1 = .off) ∧ (t2 = .off ↔ u2 = .off) := by
  obtain ⟨a0, a1, a2⟩ := directWord_enables table t0 t1 t2
  obtain ⟨b0, b1, b2⟩ := directWord_enables table u0 u1 u2
  rw [h] at a0 a1 a2
  exact ⟨not_iff_not.mp (decide_eq_decide.mp (a0.symm.trans b0)),
    not_iff_not.mp (decide_eq_decide.mp (a1.symm.trans b1)),
    not_iff_not.mp (decide_eq_decide.mp (a2.symm.trans b2))⟩

/-- With codes other than zero only an OFF bridge has the zero nibble (R95). -/
theorem nibble_eq_zero_iff {p : Params} (fwd : p.nibFwd ≠ 0b0000#4) (rev : p.nibRev ≠ 0b0000#4)
    (t : BridgeState) : nibble p t = 0b0000#4 ↔ t = .off := by
  cases t with
  | off | forward | reverse => simp [nibble, fwd, rev]

theorem off_iff_of_regData_eq {p : Params} (fwd : p.nibFwd ≠ 0b0000#4) (rev : p.nibRev ≠ 0b0000#4)
    {te tOdd ue uOdd : BridgeState} (h : regData p te tOdd = regData p ue uOdd) :
    (te = .off ↔ ue = .off) ∧ (tOdd = .off ↔ uOdd = .off) := by
  obtain ⟨lowT, highT⟩ := extract_joinNibbles (nibble p tOdd) (nibble p te)
  obtain ⟨lowU, highU⟩ := extract_joinNibbles (nibble p uOdd) (nibble p ue)
  rw [regData, regData] at h
  rw [h] at lowT highT
  have low : nibble p te = nibble p ue := lowT.symm.trans lowU
  have high : nibble p tOdd = nibble p uOdd := highT.symm.trans highU
  simp only [← nibble_eq_zero_iff fwd rev, low, high, and_self]

/-- Every bridge is one of a chip of a board that exist (R51, R52). -/
theorem exists_chip_of_lt {p : Params} {i : Nat} (h : i < p.nBridges) :
    ∃ board c k, board < p.nBoards ∧ c < p.chipsPerBoard ∧ k < p.encoding.bridgesPerChip ∧
      i = bridgeIndex p.encoding.bridgesPerChip (p.globalChip board c) k := by
  have chip : i / p.encoding.bridgesPerChip < p.nBoards * p.chipsPerBoard :=
    Nat.div_lt_of_lt_mul (by rwa [Nat.mul_comm])
  have perChip : 0 < p.encoding.bridgesPerChip := by cases p.encoding <;> decide
  have chips : 0 < p.chipsPerBoard := Nat.pos_of_ne_zero fun zero => by simp [zero] at chip
  refine ⟨i / p.encoding.bridgesPerChip / p.chipsPerBoard, i / p.encoding.bridgesPerChip % p.chipsPerBoard,
    i % p.encoding.bridgesPerChip, Nat.div_lt_of_lt_mul (by rwa [Nat.mul_comm]), Nat.mod_lt _ chips,
    Nat.mod_lt _ perChip, ?_⟩
  rw [bridgeIndex, Params.globalChip, Nat.div_add_mod', Nat.div_add_mod]

/-- Equal events drive the same bridges (R52, R163, R170). -/
theorem off_iff_of_emitEvents_eq {p : Params} (table : p.layout = DirectLayout.table)
    (fwd : p.nibFwd ≠ 0b0000#4) (rev : p.nibRev ≠ 0b0000#4) {t u : List BridgeState}
    (same : emitEvents p t = emitEvents p u) {i : Nat} (hi : i < p.nBridges) :
    t.getD i .off = .off ↔ u.getD i .off = .off := by
  obtain ⟨board, c, k, hboard, hc, hk, rfl⟩ := exists_chip_of_lt hi
  cases encoding : p.encoding with
  | direct =>
    rw [encoding] at hk
    obtain ⟨first, second, third⟩ :=
      off_iff_of_directWord_eq table (chipWord_eq_of_emitEvents_eq hboard same hc encoding)
    match k, hk with
    | 0, _ => exact first
    | 1, _ => exact second
    | 2, _ => exact third
  | regaddr =>
    rw [encoding] at hk
    have register (r : Fin 3) :=
      off_iff_of_regData_eq fwd rev (chipRegData_eq_of_emitEvents_eq hboard same hc encoding r)
    match k, hk with
    | 0, _ => exact (register 0).1
    | 1, _ => exact (register 0).2
    | 2, _ => exact (register 1).1
    | 3, _ => exact (register 1).2
    | 4, _ => exact (register 2).1
    | 5, _ => exact (register 2).2

/-- In a pulse exactly the bridges that are on are driven (R160). -/
theorem targetVector_off_iff {p : Params} {ph : Phase} (pulse : ph = .pulseForward ∨ ph = .pulseReverse)
    (d : List Bool) {i : Nat} (hi : i < p.nBridges) :
    (targetVector p ph d).getD i .off = .off ↔ d.getD i false = false := by
  rw [List.getD_eq_getElem?_getD, targetVector_getElem? p ph d hi, Option.getD_some]
  obtain rfl | rfl := pulse <;> cases d.getD i false <;> simp [targetOf]

/-- Settles O38: equal frames drive the same bridges, and in a pulse those are the bridges that are on. -/
theorem pulseFramesDetermineTheLatch : Obligations.PulseFramesDetermineTheLatch := by
  intro ph s s' t t' pulse hpar table fwd rev hlen hlen' htrace h h' frames
  cases h
  cases h'
  rw [emit_eq, emit_eq, ← hpar] at frames
  dsimp only at frames
  rw [htrace] at frames
  have same := List.append_cancel_left frames
  apply List.ext_getElem (hlen.trans hlen'.symm)
  intro i hi hi'
  have bit : s.latch.getD i false = false ↔ s'.latch.getD i false = false := by
    rw [← targetVector_off_iff pulse s.latch (hlen ▸ hi), ← targetVector_off_iff pulse s'.latch (hlen ▸ hi)]
    exact off_iff_of_emitEvents_eq table fwd rev same (hlen ▸ hi)
  simpa [hi, hi'] using bit

end Sys2Proof.Machine
